-- ==== Sys2Proof/Word.lean ====
section
/-! DEFINITION. The widths of the machine's values (spec/00_scope.md rules R6 and R8): bytes, 16-bit words,
12-bit addresses inside an instruction, register indices. -/

namespace Sys2Proof

/-- An 8-bit unsigned value: a general register, a timer, a memory cell, the field NN (R8, R21). -/
abbrev Byte := BitVec 8

/-- A 16-bit unsigned value: `I`, `pc`, a stack entry, an instruction word (R8, R24, R25, R27). -/
abbrev Word := BitVec 16

/-- The 12-bit field NNN of an instruction word (R91). -/
abbrev Addr := BitVec 12

/-- The index of a general register or of a key, a 4-bit field (R21, R33). -/
abbrev Reg := Fin 16

/-- The row count N of DXYN, 0..15 (R91, R171). -/
abbrev RowCount := Fin 16

/-- VF, register 0xF (R22). -/
abbrev Reg.vf : Reg := 15

end Sys2Proof
end

