-- ==== Sys2Proof/Syntax.lean ====
section
/-! DEFINITION. The instructions: one constructor per row of spec/opcode_table.json, in the table's order
(spec/30_encoding.md table T9). -/

namespace Sys2Proof

/-- The 35 instructions. `x` and `y` are the fields X and Y, `nn` is NN, `n` is NNN or the row count N (R91). -/
inductive Instr where
  /-- 00E0, CLS (R120). -/
  | cls
  /-- 00EE, RET (R121). -/
  | ret
  /-- 0NNN, SYS nnn (R122). -/
  | sys (n : Addr)
  /-- 1NNN, JP nnn (R123). -/
  | jp (n : Addr)
  /-- 2NNN, CALL nnn (R124). -/
  | call (n : Addr)
  /-- 3XNN, SE Vx, nn (R130). -/
  | seImm (x : Reg) (nn : Byte)
  /-- 4XNN, SNE Vx, nn (R131). -/
  | sneImm (x : Reg) (nn : Byte)
  /-- 5XY0, SE Vx, Vy (R132). -/
  | seReg (x y : Reg)
  /-- 6XNN, LD Vx, nn (R140). -/
  | ldImm (x : Reg) (nn : Byte)
  /-- 7XNN, ADD Vx, nn (R141). -/
  | addImm (x : Reg) (nn : Byte)
  /-- 8XY0, LD Vx, Vy (R142). -/
  | ldReg (x y : Reg)
  /-- 8XY1, OR Vx, Vy (R143). -/
  | orReg (x y : Reg)
  /-- 8XY2, AND Vx, Vy (R144). -/
  | andReg (x y : Reg)
  /-- 8XY3, XOR Vx, Vy (R145). -/
  | xorReg (x y : Reg)
  /-- 8XY4, ADD Vx, Vy (R147). -/
  | addReg (x y : Reg)
  /-- 8XY5, SUB Vx, Vy (R149). -/
  | subReg (x y : Reg)
  /-- 8XY6, SHR Vx, Vy (R151): `y` is an ignored field (R95), kept so that no bit of the word is lost. -/
  | shr (x y : Reg)
  /-- 8XY7, SUBN Vx, Vy (R152). -/
  | subn (x y : Reg)
  /-- 8XYE, SHL Vx, Vy (R153): `y` is an ignored field (R95). -/
  | shl (x y : Reg)
  /-- 9XY0, SNE Vx, Vy (R133). -/
  | sneReg (x y : Reg)
  /-- ANNN, LD I, nnn (R160). -/
  | ldI (n : Addr)
  /-- BNNN, JP V0, nnn (R161). -/
  | jpV0 (n : Addr)
  /-- CXNN, RND Vx, nn (R162). -/
  | rnd (x : Reg) (nn : Byte)
  /-- DXYN, DRW Vx, Vy, n (R171). -/
  | drw (x y : Reg) (n : RowCount)
  /-- EX9E, SKP Vx (R180). -/
  | skp (x : Reg)
  /-- EXA1, SKNP Vx (R181). -/
  | sknp (x : Reg)
  /-- FX07, LD Vx, DT (R190). -/
  | ldVxDT (x : Reg)
  /-- FX0A, LD Vx, K (R191). -/
  | ldVxK (x : Reg)
  /-- FX15, LD DT, Vx (R192). -/
  | ldDTVx (x : Reg)
  /-- FX18, LD ST, Vx (R193). -/
  | ldSTVx (x : Reg)
  /-- FX1E, ADD I, Vx (R194). -/
  | addI (x : Reg)
  /-- FX29, LD F, Vx (R195). -/
  | ldF (x : Reg)
  /-- FX33, LD B, Vx (R196). -/
  | ldB (x : Reg)
  /-- FX55, LD [I], Vx (R197). -/
  | storeRegs (x : Reg)
  /-- FX65, LD Vx, [I] (R198). -/
  | loadRegs (x : Reg)
  deriving DecidableEq, Repr

end Sys2Proof
end

