-- ==== Sys2Proof/WellFormed.lean ====
section
/-! DEFINITION. Which terms of `Instr` are instructions of the hardware. The types of the fields bound every operand;
what is left to check is that SYS does not name one of the two words that family 0 decodes first (R93). -/

namespace Sys2Proof

/-- `true` when the term is an instruction some word decodes to: 0NNN excludes the words 0x00E0 and 0x00EE
(spec/40_flow.md R122, spec/30_encoding.md R93). -/
def Instr.wf : Instr → Bool
  | .sys n => n != 0x0E0 && n != 0x0EE
  | .cls | .ret | .jp _ | .call _ | .seImm _ _ | .sneImm _ _ | .seReg _ _ | .ldImm _ _ | .addImm _ _
  | .ldReg _ _ | .orReg _ _ | .andReg _ _ | .xorReg _ _ | .addReg _ _ | .subReg _ _ | .shr _ _ | .subn _ _
  | .shl _ _ | .sneReg _ _ | .ldI _ | .jpV0 _ | .rnd _ _ | .drw _ _ _ | .skp _ | .sknp _ | .ldVxDT _
  | .ldVxK _ | .ldDTVx _ | .ldSTVx _ | .addI _ | .ldF _ | .ldB _ | .storeRegs _ | .loadRegs _ => true

end Sys2Proof
end

