-- ==== Sys2Proof/Decode.lean ====
section
/-! DEFINITION. The decoder (spec/30_encoding.md R90 to R95, table T9), total on any bytes and rejecting by name, and the
encoder written from the same tables. -/

namespace Sys2Proof

/-- Why bytes are no instruction. All but `truncated` are the Invalid words of table T10, named by their family; the
step raises Invalid(BAD_OPCODE) for each (R94). -/
inductive Reject where
  /-- Fewer than two bytes: every instruction is one 16-bit word (R90). -/
  | truncated
  /-- Family 5 with N other than 0 (R132). -/
  | family5
  /-- Family 8 with N in 8..D or F (R154). -/
  | family8
  /-- Family 9 with N other than 0 (R133). -/
  | family9
  /-- Family E with NN other than 9E and A1 (R182). -/
  | familyE
  /-- Family F with NN outside the nine of R199. -/
  | familyF
  deriving DecidableEq, Repr

/-! ### The fields of table T8 -/

/-- F, `w[15:12]`. -/
def fieldF (w : Word) : Fin 16 := ⟨w.toNat / 4096 % 16, Nat.mod_lt _ (by decide)⟩

/-- X, `w[11:8]`. -/
def fieldX (w : Word) : Fin 16 := ⟨w.toNat / 256 % 16, Nat.mod_lt _ (by decide)⟩

/-- Y, `w[7:4]`. -/
def fieldY (w : Word) : Fin 16 := ⟨w.toNat / 16 % 16, Nat.mod_lt _ (by decide)⟩

/-- N, `w[3:0]`. -/
def fieldN (w : Word) : Fin 16 := ⟨w.toNat % 16, Nat.mod_lt _ (by decide)⟩

/-- NN, `w[7:0]`. -/
def fieldNN (w : Word) : Byte := w.setWidth 8

/-- NNN, `w[11:0]`. -/
def fieldNNN (w : Word) : Addr := w.setWidth 12

/-! ### The decode map of table T9 -/

/-- Family 0: the two exact words first, every other word is 0NNN (R93). -/
def decodeFamily0 (w : Word) : Instr :=
  if w = 0x00E0 then .cls else if w = 0x00EE then .ret else .sys (fieldNNN w)

/-- Family 5 (R132). -/
def decodeFamily5 (w : Word) : Except Reject Instr :=
  if fieldN w = 0 then .ok (.seReg (fieldX w) (fieldY w)) else .error .family5

/-- Family 8, by its sub-opcode N (R142 to R154). -/
def decodeFamily8 (w : Word) : Except Reject Instr :=
  match (fieldN w).val with
  | 0x0 => .ok (.ldReg (fieldX w) (fieldY w))
  | 0x1 => .ok (.orReg (fieldX w) (fieldY w))
  | 0x2 => .ok (.andReg (fieldX w) (fieldY w))
  | 0x3 => .ok (.xorReg (fieldX w) (fieldY w))
  | 0x4 => .ok (.addReg (fieldX w) (fieldY w))
  | 0x5 => .ok (.subReg (fieldX w) (fieldY w))
  | 0x6 => .ok (.shr (fieldX w) (fieldY w))
  | 0x7 => .ok (.subn (fieldX w) (fieldY w))
  | 0xE => .ok (.shl (fieldX w) (fieldY w))
  | _ => .error .family8

/-- Family 9 (R133). -/
def decodeFamily9 (w : Word) : Except Reject Instr :=
  if fieldN w = 0 then .ok (.sneReg (fieldX w) (fieldY w)) else .error .family9

/-- Family E, by its sub-opcode NN (R180 to R182). -/
def decodeFamilyE (w : Word) : Except Reject Instr :=
  match (fieldNN w).toNat with
  | 0x9E => .ok (.skp (fieldX w))
  | 0xA1 => .ok (.sknp (fieldX w))
  | _ => .error .familyE

/-- Family F, by its sub-opcode NN (R190 to R199). -/
def decodeFamilyF (w : Word) : Except Reject Instr :=
  match (fieldNN w).toNat with
  | 0x07 => .ok (.ldVxDT (fieldX w))
  | 0x0A => .ok (.ldVxK (fieldX w))
  | 0x15 => .ok (.ldDTVx (fieldX w))
  | 0x18 => .ok (.ldSTVx (fieldX w))
  | 0x1E => .ok (.addI (fieldX w))
  | 0x29 => .ok (.ldF (fieldX w))
  | 0x33 => .ok (.ldB (fieldX w))
  | 0x55 => .ok (.storeRegs (fieldX w))
  | 0x65 => .ok (.loadRegs (fieldX w))
  | _ => .error .familyF

/-- The instruction of a word, by its family (R92, R93); a word that meets no row of its family is rejected (R94). -/
def decodeWord (w : Word) : Except Reject Instr :=
  match (fieldF w).val with
  | 0x0 => .ok (decodeFamily0 w)
  | 0x1 => .ok (.jp (fieldNNN w))
  | 0x2 => .ok (.call (fieldNNN w))
  | 0x3 => .ok (.seImm (fieldX w) (fieldNN w))
  | 0x4 => .ok (.sneImm (fieldX w) (fieldNN w))
  | 0x5 => decodeFamily5 w
  | 0x6 => .ok (.ldImm (fieldX w) (fieldNN w))
  | 0x7 => .ok (.addImm (fieldX w) (fieldNN w))
  | 0x8 => decodeFamily8 w
  | 0x9 => decodeFamily9 w
  | 0xA => .ok (.ldI (fieldNNN w))
  | 0xB => .ok (.jpV0 (fieldNNN w))
  | 0xC => .ok (.rnd (fieldX w) (fieldNN w))
  | 0xD => .ok (.drw (fieldX w) (fieldY w) (fieldN w))
  | 0xE => decodeFamilyE w
  | _ => decodeFamilyF w

/-- The big-endian word of two bytes: the byte at the lower address is bits 15 to 8 (R64). -/
def wordOfBytes (hi lo : Byte) : Word := hi ++ lo

/-- The byte at the lower address, bits 15 to 8 (R64). -/
def hiByte (w : Word) : Byte := w.extractLsb' 8 8

/-- The byte at the higher address, bits 7 to 0 (R64). -/
def loByte (w : Word) : Byte := w.setWidth 8

/-- The instruction at the front of a byte sequence, with the bytes after it. Total: it answers or rejects by name. -/
def decode : List Byte → Except Reject (Instr × List Byte)
  | hi :: lo :: rest => (decodeWord (wordOfBytes hi lo)).map fun i => (i, rest)
  | _ => .error .truncated

/-! ### The encoder -/

/-- The word with the fields F, X, Y and N (table T8). -/
def wordXYN (f : Nat) (x y n : Fin 16) : Word := BitVec.ofNat 16 (f * 4096 + x.val * 256 + y.val * 16 + n.val)

/-- The word with the fields F, X and NN (table T8). -/
def wordXNN (f : Nat) (x : Fin 16) (nn : Byte) : Word := BitVec.ofNat 16 (f * 4096 + x.val * 256 + nn.toNat)

/-- The word with the fields F and NNN (table T8). -/
def wordNNN (f : Nat) (n : Addr) : Word := BitVec.ofNat 16 (f * 4096 + n.toNat)

/-- The word of an instruction, from the match values of spec/opcode_table.json and the fields of table T8. -/
def encodeWord : Instr → Word
  | .cls => 0x00E0
  | .ret => 0x00EE
  | .sys n => wordNNN 0x0 n
  | .jp n => wordNNN 0x1 n
  | .call n => wordNNN 0x2 n
  | .seImm x nn => wordXNN 0x3 x nn
  | .sneImm x nn => wordXNN 0x4 x nn
  | .seReg x y => wordXYN 0x5 x y 0x0
  | .ldImm x nn => wordXNN 0x6 x nn
  | .addImm x nn => wordXNN 0x7 x nn
  | .ldReg x y => wordXYN 0x8 x y 0x0
  | .orReg x y => wordXYN 0x8 x y 0x1
  | .andReg x y => wordXYN 0x8 x y 0x2
  | .xorReg x y => wordXYN 0x8 x y 0x3
  | .addReg x y => wordXYN 0x8 x y 0x4
  | .subReg x y => wordXYN 0x8 x y 0x5
  | .shr x y => wordXYN 0x8 x y 0x6
  | .subn x y => wordXYN 0x8 x y 0x7
  | .shl x y => wordXYN 0x8 x y 0xE
  | .sneReg x y => wordXYN 0x9 x y 0x0
  | .ldI n => wordNNN 0xA n
  | .jpV0 n => wordNNN 0xB n
  | .rnd x nn => wordXNN 0xC x nn
  | .drw x y n => wordXYN 0xD x y n
  | .skp x => wordXNN 0xE x 0x9E
  | .sknp x => wordXNN 0xE x 0xA1
  | .ldVxDT x => wordXNN 0xF x 0x07
  | .ldVxK x => wordXNN 0xF x 0x0A
  | .ldDTVx x => wordXNN 0xF x 0x15
  | .ldSTVx x => wordXNN 0xF x 0x18
  | .addI x => wordXNN 0xF x 0x1E
  | .ldF x => wordXNN 0xF x 0x29
  | .ldB x => wordXNN 0xF x 0x33
  | .storeRegs x => wordXNN 0xF x 0x55
  | .loadRegs x => wordXNN 0xF x 0x65

/-- The two bytes of an instruction in address order (R64, R90). -/
def encode (i : Instr) : List Byte := [hiByte (encodeWord i), loByte (encodeWord i)]

/-- The mask and match of the instruction's row of spec/opcode_table.json: a word of the row agrees with `match` on the
bits of `mask`. -/
def Instr.opcodeRow : Instr → Word × Word
  | .cls => (0xFFFF, 0x00E0)
  | .ret => (0xFFFF, 0x00EE)
  | .sys _ => (0xF000, 0x0000)
  | .jp _ => (0xF000, 0x1000)
  | .call _ => (0xF000, 0x2000)
  | .seImm _ _ => (0xF000, 0x3000)
  | .sneImm _ _ => (0xF000, 0x4000)
  | .seReg _ _ => (0xF00F, 0x5000)
  | .ldImm _ _ => (0xF000, 0x6000)
  | .addImm _ _ => (0xF000, 0x7000)
  | .ldReg _ _ => (0xF00F, 0x8000)
  | .orReg _ _ => (0xF00F, 0x8001)
  | .andReg _ _ => (0xF00F, 0x8002)
  | .xorReg _ _ => (0xF00F, 0x8003)
  | .addReg _ _ => (0xF00F, 0x8004)
  | .subReg _ _ => (0xF00F, 0x8005)
  | .shr _ _ => (0xF00F, 0x8006)
  | .subn _ _ => (0xF00F, 0x8007)
  | .shl _ _ => (0xF00F, 0x800E)
  | .sneReg _ _ => (0xF00F, 0x9000)
  | .ldI _ => (0xF000, 0xA000)
  | .jpV0 _ => (0xF000, 0xB000)
  | .rnd _ _ => (0xF000, 0xC000)
  | .drw _ _ _ => (0xF000, 0xD000)
  | .skp _ => (0xF0FF, 0xE09E)
  | .sknp _ => (0xF0FF, 0xE0A1)
  | .ldVxDT _ => (0xF0FF, 0xF007)
  | .ldVxK _ => (0xF0FF, 0xF00A)
  | .ldDTVx _ => (0xF0FF, 0xF015)
  | .ldSTVx _ => (0xF0FF, 0xF018)
  | .addI _ => (0xF0FF, 0xF01E)
  | .ldF _ => (0xF0FF, 0xF029)
  | .ldB _ => (0xF0FF, 0xF033)
  | .storeRegs _ => (0xF0FF, 0xF055)
  | .loadRegs _ => (0xF0FF, 0xF065)

/-- A row of spec/opcode_table.json: a word of the row agrees with `val` on the bits of `mask`, and its fields make the
instruction. -/
structure OpcodeRow where
  mask : Word
  val : Word
  build : Word → Instr

/-- The 35 rows in the table's order: CLS and RET stand before SYS, whose row they are excluded from (R93). -/
def opcodeTable : List OpcodeRow :=
  [⟨0xFFFF, 0x00E0, fun _ => .cls⟩,
   ⟨0xFFFF, 0x00EE, fun _ => .ret⟩,
   ⟨0xF000, 0x0000, fun w => .sys (fieldNNN w)⟩,
   ⟨0xF000, 0x1000, fun w => .jp (fieldNNN w)⟩,
   ⟨0xF000, 0x2000, fun w => .call (fieldNNN w)⟩,
   ⟨0xF000, 0x3000, fun w => .seImm (fieldX w) (fieldNN w)⟩,
   ⟨0xF000, 0x4000, fun w => .sneImm (fieldX w) (fieldNN w)⟩,
   ⟨0xF00F, 0x5000, fun w => .seReg (fieldX w) (fieldY w)⟩,
   ⟨0xF000, 0x6000, fun w => .ldImm (fieldX w) (fieldNN w)⟩,
   ⟨0xF000, 0x7000, fun w => .addImm (fieldX w) (fieldNN w)⟩,
   ⟨0xF00F, 0x8000, fun w => .ldReg (fieldX w) (fieldY w)⟩,
   ⟨0xF00F, 0x8001, fun w => .orReg (fieldX w) (fieldY w)⟩] ++
  [⟨0xF00F, 0x8002, fun w => .andReg (fieldX w) (fieldY w)⟩,
   ⟨0xF00F, 0x8003, fun w => .xorReg (fieldX w) (fieldY w)⟩,
   ⟨0xF00F, 0x8004, fun w => .addReg (fieldX w) (fieldY w)⟩,
   ⟨0xF00F, 0x8005, fun w => .subReg (fieldX w) (fieldY w)⟩,
   ⟨0xF00F, 0x8006, fun w => .shr (fieldX w) (fieldY w)⟩,
   ⟨0xF00F, 0x8007, fun w => .subn (fieldX w) (fieldY w)⟩,
   ⟨0xF00F, 0x800E, fun w => .shl (fieldX w) (fieldY w)⟩,
   ⟨0xF00F, 0x9000, fun w => .sneReg (fieldX w) (fieldY w)⟩,
   ⟨0xF000, 0xA000, fun w => .ldI (fieldNNN w)⟩,
   ⟨0xF000, 0xB000, fun w => .jpV0 (fieldNNN w)⟩,
   ⟨0xF000, 0xC000, fun w => .rnd (fieldX w) (fieldNN w)⟩,
   ⟨0xF000, 0xD000, fun w => .drw (fieldX w) (fieldY w) (fieldN w)⟩] ++
  [⟨0xF0FF, 0xE09E, fun w => .skp (fieldX w)⟩,
   ⟨0xF0FF, 0xE0A1, fun w => .sknp (fieldX w)⟩,
   ⟨0xF0FF, 0xF007, fun w => .ldVxDT (fieldX w)⟩,
   ⟨0xF0FF, 0xF00A, fun w => .ldVxK (fieldX w)⟩,
   ⟨0xF0FF, 0xF015, fun w => .ldDTVx (fieldX w)⟩,
   ⟨0xF0FF, 0xF018, fun w => .ldSTVx (fieldX w)⟩,
   ⟨0xF0FF, 0xF01E, fun w => .addI (fieldX w)⟩,
   ⟨0xF0FF, 0xF029, fun w => .ldF (fieldX w)⟩,
   ⟨0xF0FF, 0xF033, fun w => .ldB (fieldX w)⟩,
   ⟨0xF0FF, 0xF055, fun w => .storeRegs (fieldX w)⟩,
   ⟨0xF0FF, 0xF065, fun w => .loadRegs (fieldX w)⟩]

/-- Decoding by the opcode table: the first row the word agrees with. -/
def decodeByTable (w : Word) : Option Instr :=
  (opcodeTable.find? fun r => w &&& r.mask == r.val).map fun r => r.build w

/-! ### The host's question -/

/-- The first `nbits` bits of `w` as the instruction's one word: an instruction is 16 bits long (R90), and the bits
above `nbits` are 0. -/
def tableWord (nbits w : Nat) : Word := BitVec.ofNat 16 (w % 2 ^ nbits)

/-- The instruction the decoder reads from the word whose bits are `w`, laid out big-endian in two bytes (R64). -/
def decodeTableWord (nbits w : Nat) : Option Instr :=
  match decode [hiByte (tableWord nbits w), loByte (tableWord nbits w)] with
  | .ok (i, _) => some i
  | .error _ => none

end Sys2Proof
end

