-- ==== Sys2Proof/Config.lean ====
section
/-! DEFINITION. What an implementation fixes (spec/00_scope.md table T2) and the one free value of the spec, the byte
CXNN draws. The default values stand in Machine/Defaults.lean. -/

namespace Sys2Proof

/-- The edge policy of DXYN (spec/44_draw.md R172): `clip` discards the pixels outside the screen, `invalid` makes a
box that leaves the screen Invalid(DRAW_OFFSCREEN). -/
inductive DrawOffscreen where
  | clip
  | invalid
  deriving DecidableEq, Repr

/-- The font table: 16 glyphs of 5 row bytes each, top row first (spec/10_state.md R30). -/
abbrev Font := Vector (Vector Byte 5) 16

/-- The configuration parameters of table T2 (R7), less `rand`. -/
structure Config where
  /-- `CYCLES_PER_TIMER_TICK`, N, an integer of at least 1. -/
  cyclesPerTick : Nat
  /-- `TICK_ON_BLOCKING`. -/
  tickOnBlocking : Bool
  /-- `DRAW_OFFSCREEN`. -/
  drawOffscreen : DrawOffscreen
  /-- `FONT`. -/
  font : Font
  deriving DecidableEq, Repr

/-- FREE VALUE (log 2): the byte the `n`-th execution of CXNN draws. The spec leaves the generator open
("any byte 0x00-0xFF per CXNN execution ... unconstrained", table T2 row `rand`, R162, D18); with no body, nothing can
be proved of its values. -/
opaque Config.randomByte : Nat → Byte

end Sys2Proof
end

