-- ==== Sys2Proof/Machine/Defaults.lean ====
section
/-! DEFINITION. The default column of the configuration parameters (spec/00_scope.md table T2, spec/10_state.md
table T5): what `State.reset` carries. Every statement is made for any configuration (log 1). -/

namespace Sys2Proof

/-- Table T5, the default `FONT`, glyphs 0 to F. PRESUMED (log 6): the spec itself marks the bytes
"[from general knowledge, not in source]" (R30, D15). -/
def Config.defaultFont : Font :=
  #v[#v[0xF0, 0x90, 0x90, 0x90, 0xF0],
     #v[0x20, 0x60, 0x20, 0x20, 0x70],
     #v[0xF0, 0x10, 0xF0, 0x80, 0xF0],
     #v[0xF0, 0x10, 0xF0, 0x10, 0xF0],
     #v[0x90, 0x90, 0xF0, 0x10, 0x10],
     #v[0xF0, 0x80, 0xF0, 0x10, 0xF0],
     #v[0xF0, 0x80, 0xF0, 0x90, 0xF0],
     #v[0xF0, 0x10, 0x20, 0x40, 0x40],
     #v[0xF0, 0x90, 0xF0, 0x90, 0xF0],
     #v[0xF0, 0x90, 0xF0, 0x10, 0xF0],
     #v[0xF0, 0x90, 0xF0, 0x90, 0x90],
     #v[0xE0, 0x90, 0xE0, 0x90, 0xE0],
     #v[0xF0, 0x80, 0x80, 0x80, 0xF0],
     #v[0xE0, 0x90, 0x90, 0x90, 0xE0],
     #v[0xF0, 0x80, 0xF0, 0x80, 0xF0],
     #v[0xF0, 0x80, 0xF0, 0x80, 0x80]]

/-- The default column of table T2: N = 10, no tick on Blocking, clip, the font of table T5 (D29, D9, D4, D15). -/
def Config.default : Config where
  cyclesPerTick := 10
  tickOnBlocking := false
  drawOffscreen := .clip
  font := Config.defaultFont

end Sys2Proof
end

