-- ==== Sys2Proof/Machine/Memory.lean ====
section
/-! DEFINITION. The 4096 byte cells (spec/10_state.md R29, spec/20_memory.md R60) as plain data: the list of the bytes that
are not 0x00, in the one form the type `Memory` admits. A memory is a value of its own: reading it takes no configuration. -/

namespace Sys2Proof.Machine

/-- 4096 cells (table T1 `MEM_SIZE`). -/
def memSize : Nat := 4096

/-- The canonical form, for addresses from `lo` up: addresses strictly rising, all below 4096, and no byte equal to 0x00,
what an unlisted address reads as (log 5). -/
def canonicalFrom (lo : Nat) : List Host.Cell → Bool
  | [] => true
  | (k, v) :: m => decide (lo ≤ k) && decide (k < memSize) && v != 0 && canonicalFrom (k + 1) m

/-- The canonical form of a list of cells (log 5). -/
def Memory.wf (cells : List Host.Cell) : Bool := canonicalFrom 0 cells

/-- Memory (R29): a list of cells in the canonical form. No address is listed twice and none lies outside the 4096, so the
memories are the functions from `Fin 4096` to bytes, one memory for each (`Memory.read_bijective` of Laws/Memory.lean). -/
structure Memory where
  cells : List Host.Cell
  canonical : Memory.wf cells = true
  deriving DecidableEq, Repr

/-- The byte the list has at `a`; 0x00 where none is listed (R29: the reset value of every cell outside the font). -/
def readCells : List Host.Cell → Nat → Byte
  | [], _ => 0
  | (k, v) :: m, a => if a = k then v else readCells m a

/-- The list with `b` at `a`, the addresses still rising and no 0x00 listed. -/
def writeCells : List Host.Cell → Nat → Byte → List Host.Cell
  | [], a, b => if b = 0 then [] else [(a, b)]
  | (k, v) :: m, a, b =>
    if k < a then (k, v) :: writeCells m a b
    else
      let rest := if a = k then m else (k, v) :: m
      if b = 0 then rest else (a, b) :: rest

/-- A list in the form from `lo'` up is in the form from any `lo` below. -/
theorem canonicalFrom_mono (lo lo' : Nat) (m : List Host.Cell) (h : lo ≤ lo') (hm : canonicalFrom lo' m = true) :
    canonicalFrom lo m = true := by
  cases m with
  | nil => rfl
  | cons c m =>
    simp only [canonicalFrom, Bool.and_eq_true, decide_eq_true_eq] at hm ⊢
    exact ⟨⟨⟨by omega, hm.1.1.2⟩, hm.1.2⟩, hm.2⟩

/-- A write inside the address space keeps the form. -/
theorem canonicalFrom_writeCells (lo : Nat) (m : List Host.Cell) (a : Nat) (b : Byte) (hlo : lo ≤ a) (ha : a < memSize)
    (hm : canonicalFrom lo m = true) : canonicalFrom lo (writeCells m a b) = true := by
  induction m generalizing lo with
  | nil => by_cases hb : b = 0#8 <;> simp [writeCells, canonicalFrom, hb, hlo, ha]
  | cons c m ih =>
    obtain ⟨k, v⟩ := c
    simp only [canonicalFrom, Bool.and_eq_true, decide_eq_true_eq, bne_iff_ne] at hm
    obtain ⟨⟨⟨h1, h2⟩, h3⟩, h4⟩ := hm
    have h3 : ¬ v = 0#8 := h3
    by_cases hk : k < a
    · simp [writeCells, hk, canonicalFrom, h1, h2, h3, ih (k + 1) hk h4]
    · by_cases hak : a = k
      · subst hak
        by_cases hb : b = 0#8
        · simpa [writeCells, hb] using canonicalFrom_mono lo (a + 1) m (by omega) h4
        · simp [writeCells, hb, canonicalFrom, h1, h2, h4]
      · have hlt : a + 1 ≤ k := by omega
        by_cases hb : b = 0#8 <;> simp [writeCells, hk, hak, hb, canonicalFrom, hlo, ha, hlt, h1, h2, h3, h4]

/-- `mem[a]` (R10, R70); an address outside the 4096, which no checked access makes, has no byte and reads as 0x00 (log 10). -/
def Memory.read (m : Memory) (a : Nat) : Byte := readCells m.cells a

/-- `mem[a] <- b` (R10); an address outside the 4096, which no checked access makes, is discarded (log 10). -/
def Memory.write (m : Memory) (a : Nat) (b : Byte) : Memory :=
  if h : a < memSize then ⟨writeCells m.cells a b, canonicalFrom_writeCells 0 m.cells a b (Nat.zero_le a) h m.canonical⟩
  else m

/-- Single-byte writes at ascending addresses from `base` (R65). -/
def Memory.writeAll (m : Memory) (base : Nat) : List Byte → Memory
  | [] => m
  | b :: bs => (m.write base b).writeAll (base + 1) bs

/-- Every byte 0x00. -/
def Memory.zero : Memory := ⟨[], rfl⟩

/-- The 80 bytes of a font, glyph 0 first, the top row of a glyph first (R30). -/
def fontBytes (font : Font) : List Byte := font.toList.flatMap Vector.toList

/-- The reset contents: `FONT` at 0x000-0x04F (glyph `d` at `5 d`) and 0x00 elsewhere (R29, R30, tables T6 and T13). -/
def Memory.reset (font : Font) : Memory := Memory.zero.writeAll 0 (fontBytes font)

end Sys2Proof.Machine
end

