-- ==== Sys2Proof/Machine/State.lean ====
section
/-! DEFINITION. The state aggregate (spec/10_state.md R20), the reasons a step or an instruction can stop, the outputs
of a step, and the state after reset (spec/70_reset_and_hazards.md table T13). -/

namespace Sys2Proof.Machine

/-- The Invalid reason codes of spec/60_exceptions.md table T11 (R211). As an answer of `exec` a fault is the outcome
Invalid(code) of the instruction (R210), with no state changed (R212). `step` answers no fault: it turns the outcome
Invalid into the effect the spec gives it, the halted latch and the report Stop (R215, log 3). Each is safe: the spec
itself ends the run there. -/
inductive Fault where
  /-- Code 1: a sub-opcode of families 5, 8, 9, E or F that no row has (R94). Raised by `execute` of Scheduler.lean. Safe. -/
  | badOpcode
  /-- Code 2: RET with an empty stack (R121). Raised by `retOutcome`. Safe. -/
  | stackUnderflow
  /-- Code 3: CALL with a full stack (R124). Raised by `callOutcome`. Safe. -/
  | stackOverflow
  /-- Code 4: FX29 with `V[X] > 15` (R195). Raised by `ldFOutcome`. Safe. -/
  | fontRange
  /-- Code 5: EX9E or EXA1 with `V[X] > 15` (R180, R181). Raised by `skpOutcome` and `sknpOutcome`. Safe. -/
  | keyRange
  /-- Code 6: a data access beyond 0xFFF (R66). Raised by `drwOutcome`, `ldBOutcome`, `storeRegsOutcome`, `loadRegsOutcome`. Safe. -/
  | memRange
  /-- Code 7: a fetch with `pc > 0xFFE` (R68). Reported by `tick` of Scheduler.lean. Safe. -/
  | fetchRange
  /-- Code 8: a sprite box outside the screen under the policy `invalid` (R172). Raised by `drwOutcome`. Safe. -/
  | drawOffscreen
  deriving DecidableEq, Repr

/-- Why an instruction is refused. No arm of this model refuses (log 13). -/
inductive Refusal where
  /-- Raised only by an arm of `exec` whose instruction has no meaning yet. Safe: it claims nothing. No arm has it. -/
  | notModelled (mnemonic : String)
  deriving DecidableEq, Repr

/-- A row of 64 pixels, column 0 first (R31). -/
abbrev PixelRow := Vector Bool 64

/-- The 64 by 32 grid of 1-bit pixels, row 0 first: `fb[x, y]` is pixel `x` of row `y` (R31). -/
abbrev Screen := Vector PixelRow 32

/-- The core's state as R20 gives it: exactly its fourteen fields, under its names. A field R20 writes as a function on
`Fin n` is plain data of the same values: a `Vector`; rows of pixels; and, for memory, the type `Memory` (log 5). -/
structure Aggregate where
  /-- V0 to VF (R21). -/
  V : Vector Byte 16
  /-- The index register (R24). -/
  I : Word
  /-- The program counter (R25). -/
  pc : Word
  /-- The return addresses; no address reaches them (R27). -/
  stack : Vector Word 16
  /-- The stack pointer, 0..16: how many entries are in use (R27). -/
  sp : Fin 17
  /-- Memory, 4096 bytes (R29, log 5). -/
  mem : Memory
  /-- The framebuffer (R31). -/
  fb : Screen
  /-- The framebuffer's dirty flag (R32). -/
  dirty : Bool
  /-- The key matrix, `true` for pressed (R33). -/
  key : Vector Bool 16
  /-- The delay timer (R34). -/
  dt : Byte
  /-- The sound timer (R35). -/
  st : Byte
  /-- The cycle counter, `0 ≤ cc < N` (R36). -/
  cc : Nat
  /-- The loaded flag (R37). -/
  loaded : Bool
  /-- The halted latch (R38). -/
  halted : Bool
  deriving DecidableEq, Repr

/-- What one step needs: the state of R20, and beside it the two arguments the spec's `step` takes that are not state
(R20, R215), since the host's step takes one value only. -/
structure State extends Aggregate where
  /-- NOT STATE: the configuration argument of R7, which no step and no host operation changes (log 1). -/
  cfg : Config
  /-- NOT STATE: where the draws `r` of R215 stand, as the number of CXNN executed: the index of the next free byte
  (R162, log 2). -/
  draws : Nat
  deriving DecidableEq, Repr

/-- Table T13: "Reset takes no configuration but `FONT`" (R250), whose bytes it seeds (R30). -/
def Aggregate.reset (font : Font) : Aggregate where
  V := Vector.replicate 16 0
  I := 0
  pc := 0x200
  stack := Vector.replicate 16 0
  sp := 0
  mem := Memory.reset font
  fb := Vector.replicate 32 (Vector.replicate 64 false)
  dirty := false
  key := Vector.replicate 16 false
  dt := 0
  st := 0
  cc := 0
  loaded := false
  halted := false

/-- The aggregate of table T13, a configuration beside it, no byte drawn yet (R250, log 1, log 2). -/
def State.resetWith (c : Config) : State where
  toAggregate := Aggregate.reset c.font
  cfg := c
  draws := 0

/-- The machine right after reset, with the default configuration (R250, table T2). -/
def State.reset : State := State.resetWith Config.default

/-- How an instruction ends: exactly one of three outcomes, a tagged value (R210). -/
inductive Outcome where
  /-- Success: every effect of the instruction applied, `pc` moved by it. -/
  | success (s : State)
  /-- Blocking: the state unchanged, the same instruction to be tried again. Only FX0A (R191). -/
  | blocking
  /-- Invalid, with its reason: no state changed (R212). -/
  | invalid (code : Fault)
  deriving DecidableEq, Repr

/-- An outcome in the form the host's interface has for one. -/
abbrev Result := Host.Outcome State Fault Refusal

/-- The outcome of an instruction run in `s`, in the host's form, which has no tag for Blocking: its state is the
unchanged one (log 3). -/
def Outcome.result (s : State) : Outcome → Result
  | .success t => .next t
  | .blocking => .next s
  | .invalid c => .fault c

/-- The step's report to the host (R213). -/
inductive Report where
  /-- `Continue`, after Success or Blocking. -/
  | cont
  /-- `Stop(code, pc, w)`, after Invalid; the word is absent for FETCH_RANGE. -/
  | stop (code : Fault) (pc : Word) (w : Option Word)
  /-- `NotLoaded`, a step before any program is loaded (R216). -/
  | notLoaded
  /-- `Halted`, a step after an earlier Stop (R217). -/
  | halted
  deriving DecidableEq, Repr

/-- What the spec's `step` returns (R215): the report, the state, and the beep bit (R222). -/
structure Tick where
  report : Report
  state : State
  beep : Bool
  deriving DecidableEq, Repr

end Sys2Proof.Machine
end

