-- ==== Sys2Proof/Machine/Ops.lean ====
section
/-! DEFINITION. The named operations over memory, registers, the stack, the framebuffer and `pc`, fetching an
instruction's bytes, and the one taking of an Invalid outcome (there is no trap and no return from one: R226). -/

namespace Sys2Proof.Machine

/-! ### Memory (spec/20_memory.md) -/

/-- `MemRead(a, 1)` (R10). -/
def State.byte (s : State) (a : Nat) : Byte := s.mem.read a

/-- `MemWrite(a, 1, b)` (R10). -/
def State.setByte (s : State) (a : Nat) (b : Byte) : State := { s with mem := s.mem.write a b }

/-- The `n` bytes at `base`, ascending (R65). -/
def State.bytes (s : State) (base n : Nat) : List Byte := (List.range n).map fun k => s.byte (base + k)

/-- Single-byte writes at ascending addresses from `base` (R65). -/
def State.setBytes (s : State) (base : Nat) (bs : List Byte) : State := { s with mem := s.mem.writeAll base bs }

/-! ### Registers -/

/-- `V[x]` (R9). -/
def State.v (s : State) (x : Reg) : Byte := s.V[x.val]

/-- `V[x] <- b` (R9). No register is hardwired (R21). -/
def State.setV (s : State) (x : Reg) (b : Byte) : State := { s with V := s.V.set x.val b }

/-- `V[k] <- b_k` for the registers the list reaches, `V[first]` first (R198). -/
def State.setRegs (s : State) (first : Nat) : List Byte → State
  | [] => s
  | b :: bs => (if h : first < 16 then s.setV ⟨first, h⟩ b else s).setRegs (first + 1) bs

/-- `I <- w` (R24). -/
def State.setI (s : State) (w : Word) : State := { s with I := w }

/-- `dt <- b` (R34). -/
def State.setDt (s : State) (b : Byte) : State := { s with dt := b }

/-- `st <- b` (R35). -/
def State.setSt (s : State) (b : Byte) : State := { s with st := b }

/-- `cc <- n` (R36). -/
def State.setCc (s : State) (n : Nat) : State := { s with cc := n }

/-- One byte of the free stream is used up (R162, log 2). -/
def State.countDraw (s : State) : State := { s with draws := s.draws + 1 }

/-! ### The program counter (spec/10_state.md table T4) -/

/-- `pc <- w` (R9). No target is checked when it is written (R125). -/
def State.setPc (s : State) (w : Word) : State := { s with pc := w }

/-- `pc <- pc + 2`. -/
def State.advancePc (s : State) : State := s.setPc (s.pc + 2)

/-- `pc <- pc + 4` when the condition holds, else `pc + 2`; the skipped word is not looked at (R134). -/
def State.skipIf (s : State) (c : Bool) : State := s.setPc (if c then s.pc + 4 else s.pc + 2)

/-! ### The call stack (R27) -/

/-- `stack[sp] <- w; sp <- sp + 1`, or nothing to answer when the stack is full. -/
def State.push (s : State) (w : Word) : Option State :=
  if h : s.sp.val < 16 then
    some { s with stack := s.stack.set s.sp.val w, sp := ⟨s.sp.val + 1, by omega⟩ }
  else none

/-- `sp <- sp - 1; v <- stack[sp]`, or nothing to answer when the stack is empty. The entry keeps its value. -/
def State.pop (s : State) : Option (Word × State) :=
  if h : 0 < s.sp.val then
    some (s.stack[s.sp.val - 1]'(by have := s.sp.isLt; omega), { s with sp := ⟨s.sp.val - 1, by omega⟩ })
  else none

/-! ### The framebuffer (R31, R32) -/

/-- `fb[x, y]`; a position outside the screen has no pixel and reads as 0. -/
def Screen.pixel (f : Screen) (x y : Nat) : Bool :=
  if h : x < 64 ∧ y < 32 then (f[y]'h.2)[x]'h.1 else false

/-- `fb[x, y] <- fb[x, y] XOR 1`; a position outside the screen is discarded (R171). -/
def Screen.toggle (f : Screen) (x y : Nat) : Screen :=
  if h : x < 64 ∧ y < 32 then f.set y ((f[y]'h.2).set x (!(f[y]'h.2)[x]'h.1) h.1) h.2 else f

/-- Every pixel 0. -/
def Screen.blank : Screen := Vector.replicate 32 (Vector.replicate 64 false)

/-- A new framebuffer, marked dirty whether or not a pixel changed (R32). -/
def State.setScreen (s : State) (f : Screen) : State := { s with fb := f, dirty := true }

/-! ### How an instruction ends (R10) -/

/-- `succeed`: Success, every write kept. -/
def succeed (s : State) : Outcome := .success s

/-- `block`: Blocking, the state unchanged (R210, R220). -/
def block : Outcome := .blocking

/-- `raise Invalid(code)`: no state written earlier survives (R10, R212). -/
def raise (c : Fault) : Outcome := .invalid c

/-- The numbers of table T11 (R211). -/
def Fault.code : Fault → Nat
  | .badOpcode => 1
  | .stackUnderflow => 2
  | .stackOverflow => 3
  | .fontRange => 4
  | .keyRange => 5
  | .memRange => 6
  | .fetchRange => 7
  | .drawOffscreen => 8

/-- Taking an Invalid outcome: only the halted latch changes (R212, R215). -/
def State.stop (s : State) : State := { s with halted := true }

/-! ### Fetching (R64, R68) -/

/-- The big-endian word at `pc`, or nothing when `pc > 0xFFE`. -/
def State.fetch (s : State) : Option Word :=
  if s.pc.toNat ≤ 0xFFE then some (wordOfBytes (s.byte s.pc.toNat) (s.byte (s.pc.toNat + 1))) else none

/-- The host's placing of an instruction where the next step fetches (log 12): its bytes at `pc`, big-endian, the machine
loaded and not halted, and `pc` at the program start when it holds no address a fetch can use. -/
def State.placeWord (s : State) (w : Word) : State :=
  let at' : Word := if s.pc.toNat ≤ 0xFFE then s.pc else 0x200
  ({ s with pc := at', loaded := true, halted := false } : State).setBytes at'.toNat [hiByte w, loByte w]

end Sys2Proof.Machine
end

