-- ==== Sys2Proof/Machine/Flags.lean ====
section
/-! DEFINITION. The flag computations: VF is the only flag (spec/10_state.md R22, R39). -/

namespace Sys2Proof.Machine

/-- A flag as the byte VF holds. -/
def flagByte (c : Bool) : Byte := if c then 1 else 0

/-- The carry of 8XY4 (R147, R148). -/
def carryFlag (a b : Byte) : Byte := flagByte (decide (255 < a.toNat + b.toNat))

/-- The not-borrow flag of `p - q` (R149, R150, R152). -/
def notBorrowFlag (p q : Byte) : Byte := flagByte (!decide (p.toNat < q.toNat))

/-- The collision flag of DXYN (R173). -/
def collisionFlag (c : Bool) : Byte := flagByte c

/-- The writes of an instruction with a flag: `V[X]` first and VF last, so the flag survives when X = 0xF (R146). -/
def State.setVThenFlag (s : State) (x : Reg) (r flag : Byte) : State := (s.setV x r).setV Reg.vf flag

end Sys2Proof.Machine
end

