-- ==== Sys2Proof/Machine/Operands.lean ====
section
/-! DEFINITION. The operand forms: zero-extended fields, the checked ranges (addresses, keys, glyphs), the decimal
digits, the sprite bits, and the key scan. -/

namespace Sys2Proof.Machine

/-- `zext_16(NNN)` (R91). -/
def addrWord (n : Addr) : Word := n.setWidth 16

/-- `zext_16(V)` (R161, R194). -/
def byteWord (b : Byte) : Word := b.setWidth 16

/-- The check of R66: the last address of the access, computed without wrapping, is an address; an access of no bytes
checks nothing. -/
def accessOk (base n : Nat) : Bool := n == 0 || base + n - 1 ≤ 0xFFF

/-- The key a register names, when there is one (R180, R181). -/
def keyIndex (b : Byte) : Option Reg := if h : b.toNat ≤ 15 then some ⟨b.toNat, by omega⟩ else none

/-- The address of the glyph a register names, when there is one: 5 bytes a glyph (R195). -/
def glyphAddress (b : Byte) : Option Word := if b.toNat ≤ 15 then some (BitVec.ofNat 16 (b.toNat * 5)) else none

/-- The hundreds, tens and units digits (R196). -/
def decimalDigits (b : Byte) : List Byte :=
  [BitVec.ofNat 8 (b.toNat / 100), BitVec.ofNat 8 (b.toNat / 10 % 10), BitVec.ofNat 8 (b.toNat % 10)]

/-- V0 to VX, V0 first (R197). -/
def regsUpTo (s : State) (x : Reg) : List Byte := s.V.toList.take (x.val + 1)

/-- Whether bit `k` columns from the left of a sprite row is set: bit 7 is the leftmost pixel (R170). -/
def spriteBit (row : Byte) (k : Nat) : Bool := decide (k < 8) && row.getLsbD (7 - k)

/-- The scan of FX0A: it does not stop at the first match, so the highest pressed index wins (R191). -/
def pressedKey (key : Vector Bool 16) : Option Reg :=
  (List.finRange 16).foldl (fun found k => if key[k.val] then some k else found) none

/-- Whether any position of the 8 by `n` box at `(x0, y0)` is outside the screen (R171, R172). -/
def boxOffscreen (x0 y0 n : Nat) : Bool := decide (0 < n) && (decide (63 < x0 + 7) || decide (31 < y0 + n - 1))

end Sys2Proof.Machine
end

