-- ==== Sys2Proof/Machine/Alu.lean ====
section
/-! DEFINITION. Families 6, 7 and 8: register loads and arithmetic (spec/42_alu.md). Both operands are read before any
write (R146). -/

namespace Sys2Proof.Machine

/-- `V[X] <- r; pc <- pc + 2`, VF not written as a flag. -/
def writeV (x : Reg) (r : Byte) (s : State) : Outcome := succeed (s.setV x r).advancePc

/-- `V[X] <- r; V[0xF] <- flag; pc <- pc + 2` (R146). -/
def writeVAndFlag (x : Reg) (r flag : Byte) (s : State) : Outcome := succeed (s.setVThenFlag x r flag).advancePc

/-- 6XNN (R140). -/
def ldImmOutcome (x : Reg) (nn : Byte) (s : State) : Outcome := writeV x nn s

/-- `ldImmOutcome` in the host's form. -/
def execLdImm (x : Reg) (nn : Byte) (s : State) : Result := (ldImmOutcome x nn s).result s

/-- 7XNN: no flag (R141). -/
def addImmOutcome (x : Reg) (nn : Byte) (s : State) : Outcome := writeV x (s.v x + nn) s

/-- `addImmOutcome` in the host's form. -/
def execAddImm (x : Reg) (nn : Byte) (s : State) : Result := (addImmOutcome x nn s).result s

/-- 8XY0 (R142). -/
def ldRegOutcome (x y : Reg) (s : State) : Outcome := writeV x (s.v y) s

/-- `ldRegOutcome` in the host's form. -/
def execLdReg (x y : Reg) (s : State) : Result := (ldRegOutcome x y s).result s

/-- 8XY1 (R143). -/
def orRegOutcome (x y : Reg) (s : State) : Outcome := writeV x (s.v x ||| s.v y) s

/-- `orRegOutcome` in the host's form. -/
def execOrReg (x y : Reg) (s : State) : Result := (orRegOutcome x y s).result s

/-- 8XY2 (R144). -/
def andRegOutcome (x y : Reg) (s : State) : Outcome := writeV x (s.v x &&& s.v y) s

/-- `andRegOutcome` in the host's form. -/
def execAndReg (x y : Reg) (s : State) : Result := (andRegOutcome x y s).result s

/-- 8XY3 (R145). -/
def xorRegOutcome (x y : Reg) (s : State) : Outcome := writeV x (s.v x ^^^ s.v y) s

/-- `xorRegOutcome` in the host's form. -/
def execXorReg (x y : Reg) (s : State) : Result := (xorRegOutcome x y s).result s

/-- 8XY4 (R147, R148). -/
def addRegOutcome (x y : Reg) (s : State) : Outcome :=
  writeVAndFlag x (s.v x + s.v y) (carryFlag (s.v x) (s.v y)) s

/-- `addRegOutcome` in the host's form. -/
def execAddReg (x y : Reg) (s : State) : Result := (addRegOutcome x y s).result s

/-- 8XY5 (R149, R150). -/
def subRegOutcome (x y : Reg) (s : State) : Outcome :=
  writeVAndFlag x (s.v x - s.v y) (notBorrowFlag (s.v x) (s.v y)) s

/-- `subRegOutcome` in the host's form. -/
def execSubReg (x y : Reg) (s : State) : Result := (subRegOutcome x y s).result s

/-- 8XY6: the source is VX, the field Y is ignored, VF is not written (R151). -/
def shrOutcome (x _y : Reg) (s : State) : Outcome := writeV x (s.v x >>> 1) s

/-- `shrOutcome` in the host's form. -/
def execShr (x y : Reg) (s : State) : Result := (shrOutcome x y s).result s

/-- 8XY7 (R152, R150). -/
def subnOutcome (x y : Reg) (s : State) : Outcome :=
  writeVAndFlag x (s.v y - s.v x) (notBorrowFlag (s.v y) (s.v x)) s

/-- `subnOutcome` in the host's form. -/
def execSubn (x y : Reg) (s : State) : Result := (subnOutcome x y s).result s

/-- 8XYE: the source is VX, the field Y is ignored, VF is not written (R153). -/
def shlOutcome (x _y : Reg) (s : State) : Outcome := writeV x (s.v x <<< 1) s

/-- `shlOutcome` in the host's form. -/
def execShl (x y : Reg) (s : State) : Result := (shlOutcome x y s).result s

end Sys2Proof.Machine
end

