-- ==== Sys2Proof/Machine/Draw.lean ====
section
/-! DEFINITION. Family D: draw sprite (spec/44_draw.md). -/

namespace Sys2Proof.Machine

/-- A drawing in progress: the framebuffer and the collision bit `c` of R171. -/
abbrev Canvas := Screen × Bool

/-- One set sprite bit at `(x, y)`: off screen it is discarded and counts for nothing; on screen the pixel is toggled,
and a pixel that was 1 is a collision (R171). -/
def Canvas.plot (c : Canvas) (x y : Nat) : Canvas := (c.1.toggle x y, c.2 || c.1.pixel x y)

/-- The 8 columns of one sprite row at `(x0, y)`, leftmost first (R171). -/
def Canvas.drawRow (c : Canvas) (row : Byte) (x0 y : Nat) : Canvas :=
  (List.range 8).foldl (fun c k => if spriteBit row k then c.plot (x0 + k) y else c) c

/-- The rows of a sprite, the first at `(x0, y)` (R170, R171). -/
def Canvas.drawRows (c : Canvas) (x0 y : Nat) : List Byte → Canvas
  | [] => c
  | row :: rows => (c.drawRow row x0 y).drawRows x0 (y + 1) rows

/-- DXYN: reads, then MEM_RANGE, then the edge policy, then the pixels, then VF and `dirty` (R171, R172, R174). -/
def drwOutcome (x y : Reg) (n : RowCount) (s : State) : Outcome :=
  let x0 := (s.v x).toNat
  let y0 := (s.v y).toNat
  let base := s.I.toNat
  if accessOk base n.val = false then raise .memRange
  else if s.cfg.drawOffscreen = .invalid ∧ boxOffscreen x0 y0 n.val = true then raise .drawOffscreen
  else
    let c := Canvas.drawRows (s.fb, false) x0 y0 (s.bytes base n.val)
    succeed ((s.setScreen c.1).setV Reg.vf (collisionFlag c.2)).advancePc

/-- `drwOutcome` in the host's form. -/
def execDrw (x y : Reg) (n : RowCount) (s : State) : Result := (drwOutcome x y n s).result s

end Sys2Proof.Machine
end

