-- ==== Sys2Proof/Machine/Flow.lean ====
section
/-! DEFINITION. Families 0, 1 and 2: clear screen, return, machine call, jump, call (spec/40_flow.md). -/

namespace Sys2Proof.Machine

/-- 00E0 (R120). -/
def clsOutcome (s : State) : Outcome := succeed (s.setScreen Screen.blank).advancePc

/-- `clsOutcome` in the host's form. -/
def execCls (s : State) : Result := (clsOutcome s).result s

/-- 00EE (R121). -/
def retOutcome (s : State) : Outcome :=
  match s.pop with
  | none => raise .stackUnderflow
  | some (w, s') => succeed (s'.setPc (w + 2))

/-- `retOutcome` in the host's form. -/
def execRet (s : State) : Result := (retOutcome s).result s

/-- 0NNN, a jump with no push (R122). -/
def sysOutcome (n : Addr) (s : State) : Outcome := succeed (s.setPc (addrWord n))

/-- `sysOutcome` in the host's form. -/
def execSys (n : Addr) (s : State) : Result := (sysOutcome n s).result s

/-- 1NNN (R123). -/
def jpOutcome (n : Addr) (s : State) : Outcome := succeed (s.setPc (addrWord n))

/-- `jpOutcome` in the host's form. -/
def execJp (n : Addr) (s : State) : Result := (jpOutcome n s).result s

/-- 2NNN: the value pushed is the address of the CALL itself (R124). -/
def callOutcome (n : Addr) (s : State) : Outcome :=
  match s.push s.pc with
  | none => raise .stackOverflow
  | some s' => succeed (s'.setPc (addrWord n))

/-- `callOutcome` in the host's form. -/
def execCall (n : Addr) (s : State) : Result := (callOutcome n s).result s

end Sys2Proof.Machine
end

