-- ==== Sys2Proof/Machine/Fx.lean ====
section
/-! DEFINITION. Family F: timers, key wait, index arithmetic, font, BCD and register-block transfers (spec/46_fx.md). -/

namespace Sys2Proof.Machine

/-- FX07 (R190). -/
def ldVxDTOutcome (x : Reg) (s : State) : Outcome := succeed (s.setV x s.dt).advancePc

/-- `ldVxDTOutcome` in the host's form. -/
def execLdVxDT (x : Reg) (s : State) : Result := (ldVxDTOutcome x s).result s

/-- FX0A: with no key pressed the outcome is Blocking, the state unchanged (R191). -/
def ldVxKOutcome (x : Reg) (s : State) : Outcome :=
  match pressedKey s.key with
  | none => block
  | some k => succeed (s.setV x (BitVec.ofNat 8 k.val)).advancePc

/-- `ldVxKOutcome` in the host's form. -/
def execLdVxK (x : Reg) (s : State) : Result := (ldVxKOutcome x s).result s

/-- FX15 (R192). -/
def ldDTVxOutcome (x : Reg) (s : State) : Outcome := succeed (s.setDt (s.v x)).advancePc

/-- `ldDTVxOutcome` in the host's form. -/
def execLdDTVx (x : Reg) (s : State) : Result := (ldDTVxOutcome x s).result s

/-- FX18 (R193). -/
def ldSTVxOutcome (x : Reg) (s : State) : Outcome := succeed (s.setSt (s.v x)).advancePc

/-- `ldSTVxOutcome` in the host's form. -/
def execLdSTVx (x : Reg) (s : State) : Result := (ldSTVxOutcome x s).result s

/-- FX1E: mod 2^16, no check, no flag (R194). -/
def addIOutcome (x : Reg) (s : State) : Outcome := succeed (s.setI (s.I + byteWord (s.v x))).advancePc

/-- `addIOutcome` in the host's form. -/
def execAddI (x : Reg) (s : State) : Result := (addIOutcome x s).result s

/-- FX29 (R195). -/
def ldFOutcome (x : Reg) (s : State) : Outcome :=
  match glyphAddress (s.v x) with
  | none => raise .fontRange
  | some a => succeed (s.setI a).advancePc

/-- `ldFOutcome` in the host's form. -/
def execLdF (x : Reg) (s : State) : Result := (ldFOutcome x s).result s

/-- FX33 (R196). -/
def ldBOutcome (x : Reg) (s : State) : Outcome :=
  if accessOk s.I.toNat 3 then succeed (s.setBytes s.I.toNat (decimalDigits (s.v x))).advancePc else raise .memRange

/-- `ldBOutcome` in the host's form. -/
def execLdB (x : Reg) (s : State) : Result := (ldBOutcome x s).result s

/-- FX55: V0 at the lowest address, `I` unchanged (R197). -/
def storeRegsOutcome (x : Reg) (s : State) : Outcome :=
  if accessOk s.I.toNat (x.val + 1) then succeed (s.setBytes s.I.toNat (regsUpTo s x)).advancePc else raise .memRange

/-- `storeRegsOutcome` in the host's form. -/
def execStoreRegs (x : Reg) (s : State) : Result := (storeRegsOutcome x s).result s

/-- FX65: registers above VX and `I` unchanged (R198). -/
def loadRegsOutcome (x : Reg) (s : State) : Outcome :=
  if accessOk s.I.toNat (x.val + 1) then succeed (s.setRegs 0 (s.bytes s.I.toNat (x.val + 1))).advancePc
  else raise .memRange

/-- `loadRegsOutcome` in the host's form. -/
def execLoadRegs (x : Reg) (s : State) : Result := (loadRegsOutcome x s).result s

end Sys2Proof.Machine
end

