-- ==== Sys2Proof/Machine/IndexJumpRand.lean ====
section
/-! DEFINITION. Families A, B and C: load index, indexed jump, random (spec/43_index_jump_rand.md). -/

namespace Sys2Proof.Machine

/-- ANNN (R160). -/
def ldIOutcome (n : Addr) (s : State) : Outcome := succeed (s.setI (addrWord n)).advancePc

/-- `ldIOutcome` in the host's form. -/
def execLdI (n : Addr) (s : State) : Result := (ldIOutcome n s).result s

/-- BNNN: always V0, the sum not masked to 12 bits (R161). -/
def jpV0Outcome (n : Addr) (s : State) : Outcome := succeed (s.setPc (addrWord n + byteWord (s.v 0)))

/-- `jpV0Outcome` in the host's form. -/
def execJpV0 (n : Addr) (s : State) : Result := (jpV0Outcome n s).result s

/-- CXNN with the byte drawn as an argument (R162). -/
def rndWith (r : Byte) (x : Reg) (nn : Byte) (s : State) : Outcome := succeed (s.setV x (r &&& nn)).countDraw.advancePc

/-- CXNN: the byte drawn is a free value (R162, log 2). -/
def rndOutcome (x : Reg) (nn : Byte) (s : State) : Outcome := rndWith (Config.randomByte s.draws) x nn s

/-- `rndOutcome` in the host's form. -/
def execRnd (x : Reg) (nn : Byte) (s : State) : Result := (rndOutcome x nn s).result s

end Sys2Proof.Machine
end

