-- ==== Sys2Proof/Machine/Keys.lean ====
section
/-! DEFINITION. Family E: skip on key state (spec/45_keys.md). -/

namespace Sys2Proof.Machine

/-- EX9E (R180). -/
def skpOutcome (x : Reg) (s : State) : Outcome :=
  match keyIndex (s.v x) with
  | none => raise .keyRange
  | some k => succeed (s.skipIf s.key[k.val])

/-- `skpOutcome` in the host's form. -/
def execSkp (x : Reg) (s : State) : Result := (skpOutcome x s).result s

/-- EXA1 (R181). -/
def sknpOutcome (x : Reg) (s : State) : Outcome :=
  match keyIndex (s.v x) with
  | none => raise .keyRange
  | some k => succeed (s.skipIf (!s.key[k.val]))

/-- `sknpOutcome` in the host's form. -/
def execSknp (x : Reg) (s : State) : Result := (sknpOutcome x s).result s

end Sys2Proof.Machine
end

