-- ==== Sys2Proof/Machine/Skip.lean ====
section
/-! DEFINITION. Families 3, 4, 5 and 9: conditional skips (spec/41_skip.md). -/

namespace Sys2Proof.Machine

/-- 3XNN (R130). -/
def seImmOutcome (x : Reg) (nn : Byte) (s : State) : Outcome := succeed (s.skipIf (s.v x == nn))

/-- `seImmOutcome` in the host's form. -/
def execSeImm (x : Reg) (nn : Byte) (s : State) : Result := (seImmOutcome x nn s).result s

/-- 4XNN (R131). -/
def sneImmOutcome (x : Reg) (nn : Byte) (s : State) : Outcome := succeed (s.skipIf (s.v x != nn))

/-- `sneImmOutcome` in the host's form. -/
def execSneImm (x : Reg) (nn : Byte) (s : State) : Result := (sneImmOutcome x nn s).result s

/-- 5XY0 (R132). -/
def seRegOutcome (x y : Reg) (s : State) : Outcome := succeed (s.skipIf (s.v x == s.v y))

/-- `seRegOutcome` in the host's form. -/
def execSeReg (x y : Reg) (s : State) : Result := (seRegOutcome x y s).result s

/-- 9XY0 (R133). -/
def sneRegOutcome (x y : Reg) (s : State) : Outcome := succeed (s.skipIf (s.v x != s.v y))

/-- `sneRegOutcome` in the host's form. -/
def execSneReg (x y : Reg) (s : State) : Result := (sneRegOutcome x y s).result s

end Sys2Proof.Machine
end

