-- ==== Sys2Proof/Machine/Outcomes.lean ====
section
/-! DEFINITION. The outcome of every instruction, as the tagged value of spec/60_exceptions.md R210. `exec` of Dispatch.lean
is the same in the host's form (`exec_eq_outcome` of Laws/Exec.lean). -/

namespace Sys2Proof.Machine

/-- How the instruction ends in `s` (R210). -/
def outcome (i : Instr) (s : State) : Outcome :=
  match i with
  | .cls => clsOutcome s
  | .ret => retOutcome s
  | .sys n => sysOutcome n s
  | .jp n => jpOutcome n s
  | .call n => callOutcome n s
  | .seImm x nn => seImmOutcome x nn s
  | .sneImm x nn => sneImmOutcome x nn s
  | .seReg x y => seRegOutcome x y s
  | .ldImm x nn => ldImmOutcome x nn s
  | .addImm x nn => addImmOutcome x nn s
  | .ldReg x y => ldRegOutcome x y s
  | .orReg x y => orRegOutcome x y s
  | .andReg x y => andRegOutcome x y s
  | .xorReg x y => xorRegOutcome x y s
  | .addReg x y => addRegOutcome x y s
  | .subReg x y => subRegOutcome x y s
  | .shr x y => shrOutcome x y s
  | .subn x y => subnOutcome x y s
  | .shl x y => shlOutcome x y s
  | .sneReg x y => sneRegOutcome x y s
  | .ldI n => ldIOutcome n s
  | .jpV0 n => jpV0Outcome n s
  | .rnd x nn => rndOutcome x nn s
  | .drw x y n => drwOutcome x y n s
  | .skp x => skpOutcome x s
  | .sknp x => sknpOutcome x s
  | .ldVxDT x => ldVxDTOutcome x s
  | .ldVxK x => ldVxKOutcome x s
  | .ldDTVx x => ldDTVxOutcome x s
  | .ldSTVx x => ldSTVxOutcome x s
  | .addI x => addIOutcome x s
  | .ldF x => ldFOutcome x s
  | .ldB x => ldBOutcome x s
  | .storeRegs x => storeRegsOutcome x s
  | .loadRegs x => loadRegsOutcome x s

end Sys2Proof.Machine
end

