-- ==== Sys2Proof/Machine/Scheduler.lean ====
section
/-! DEFINITION. The CycleScheduler (spec/60_exceptions.md R215, R219 to R222): fetch, decode, execute, then the cycle
counter and the timer tick. -/

namespace Sys2Proof.Machine

/-- `advance` (R221): the cycle counter, and on every N-th call the timer tick, whose beep bit is the second answer (R222). -/
def State.advance (s : State) : State × Bool :=
  if s.cc + 1 < s.cfg.cyclesPerTick then (s.setCc (s.cc + 1), false)
  else
    let s' := (s.setCc 0).setDt (if 0 < s.dt.toNat then s.dt - 1 else 0)
    if 0 < s.st.toNat then (s'.setSt (s.st - 1), true) else (s', false)

/-- `execute(w, s, r)` (R215): the decode map, then the instruction; a word that is no instruction is
Invalid(BAD_OPCODE) (R94). -/
def execute (w : Word) (s : State) : Outcome :=
  match decodeWord w with
  | .error _ => raise .badOpcode
  | .ok i => outcome i s

/-- The three cases of R215: what the scheduler makes of the outcome of the word `w` executed in `s` (R212, R219, R220). -/
def settle (w : Word) (s : State) : Outcome → Tick
  | .invalid c => ⟨.stop c s.pc (some w), s.stop, false⟩
  | .blocking => if s.cfg.tickOnBlocking then ⟨.cont, s.advance.1, s.advance.2⟩ else ⟨.cont, s, false⟩
  | .success s1 => ⟨.cont, s1.advance.1, s1.advance.2⟩

/-- The spec's `step` with its three answers: the report, the state and the beep (R215). -/
def tick (s : State) : Host.Outcome Tick Fault Refusal :=
  if s.halted then .next ⟨.halted, s, false⟩
  else if s.loaded then
    match s.fetch with
    | none => .next ⟨.stop .fetchRange s.pc none, s.stop, false⟩
    | some w => .next (settle w s (execute w s))
  else .next ⟨.notLoaded, s, false⟩

/-- The state of a tick's answer, its report and beep left aside (log 4). -/
def stateOfTick : Host.Outcome Tick Fault Refusal → Result
  | .next t => .next t.state
  | .fault c => .fault c
  | .refused r => .refused r

end Sys2Proof.Machine
end

