-- ==== Sys2Proof/Machine/Step.lean ====
section
/-! DEFINITION. One step, and the host's placing of an instruction. -/

namespace Sys2Proof.Machine

/-- One step of the core (spec/60_exceptions.md R215): the state of `tick`. -/
def step (s : State) : Host.Outcome State Fault Refusal := stateOfTick (tick s)

/-- `s` with the instruction whose bits are `w` where the next step fetches it, loaded and not halted (log 12). -/
def State.withFetchWord (s : State) (nbits w : Nat) : State := s.placeWord (tableWord nbits w)

end Sys2Proof.Machine
end

