-- ==== Sys2Proof/Machine/HostOps.lean ====
section
/-! DEFINITION. What the host does between steps (spec/60_exceptions.md table T12, spec/70_reset_and_hazards.md): reset,
load, setKey, consumeFrame. A step is Machine/Step.lean; the beep is a field of its answer. -/

namespace Sys2Proof.Machine

/-- `reset`: table T13 at any time; nothing the spec calls state survives (R250, R251). The model's own fields stay: the
configuration (log 1), and `draws`, so that the bytes drawn after it are free values of their own (log 2). -/
def hostReset (s : State) : State := { State.resetWith s.cfg with draws := s.draws }

/-- The longest image: 4096 - 0x200 bytes (table T1 `ROM_MAX`). -/
def romMax : Nat := 3584

/-- `load(bytes)` (R252): `none` is LoadError, nothing changed. -/
def hostLoad (s : State) (image : List Byte) : Option State :=
  if s.loaded = true ∨ image.length = 0 ∨ romMax < image.length then none
  else some { s.setBytes 0x200 image with loaded := true }

/-- `setKey(k, p)` (R231). -/
def hostSetKey (s : State) (k : Reg) (p : Bool) : State := { s with key := s.key.set k.val p }

/-- What `consumeFrame` returns (R232). -/
structure FrameReply where
  screen : Screen
  wasDirty : Bool
  deriving DecidableEq, Repr

/-- `consumeFrame`: a copy of the framebuffer and the old `dirty`; then `dirty <- 0` (R232). -/
def hostConsumeFrame (s : State) : FrameReply × State := (⟨s.fb, s.dirty⟩, { s with dirty := false })

/-- A host operation other than a step. -/
inductive HostOp where
  | reset
  | load (image : List Byte)
  | setKey (k : Reg) (p : Bool)
  | consumeFrame
  deriving DecidableEq, Repr

/-- The state after a host operation; a refused load changes nothing (R230, R252). -/
def HostOp.apply (s : State) : HostOp → State
  | .reset => hostReset s
  | .load image => (hostLoad s image).getD s
  | .setKey k p => hostSetKey s k p
  | .consumeFrame => (hostConsumeFrame s).2

end Sys2Proof.Machine
end

