-- ==== Sys2Proof/Safety.lean ====
section
/-! DEFINITION. The terms claims are made in: the parts of the state and frames over them, the invariant, what a safe
step is, and the states a run with a host can reach. -/

namespace Sys2Proof.Machine

/-! ### Frames -/

/-- The parts of the state, one per field of `State`. -/
inductive Part where
  | V | I | pc | stack | sp | mem | fb | dirty | key | dt | st | cc | loaded | halted | cfg | draws
  deriving DecidableEq, Repr

/-- The part reads the same in both states. Memory is compared through reads of one byte, for every address. -/
def Part.same (s t : State) : Part → Prop
  | .V => ∀ k : Reg, t.v k = s.v k
  | .I => t.I = s.I
  | .pc => t.pc = s.pc
  | .stack => t.stack = s.stack
  | .sp => t.sp = s.sp
  | .mem => ∀ a : Nat, t.byte a = s.byte a
  | .fb => t.fb = s.fb
  | .dirty => t.dirty = s.dirty
  | .key => t.key = s.key
  | .dt => t.dt = s.dt
  | .st => t.st = s.st
  | .cc => t.cc = s.cc
  | .loaded => t.loaded = s.loaded
  | .halted => t.halted = s.halted
  | .cfg => t.cfg = s.cfg
  | .draws => t.draws = s.draws

/-- Every part outside `changed` reads the same. -/
def Frame (changed : List Part) (s t : State) : Prop := ∀ p : Part, p ∉ changed → p.same s t

/-- Every general register outside `written` reads the same. -/
def OtherRegsSame (written : List Reg) (s t : State) : Prop := ∀ k : Reg, k ∉ written → t.v k = s.v k

/-- Every byte of memory outside `base .. base + n - 1` reads the same. -/
def OtherBytesSame (base n : Nat) (s t : State) : Prop :=
  ∀ a : Nat, (a < base ∨ base + n ≤ a) → t.byte a = s.byte a

/-! ### What instructions do -/

/-- The instruction completes: it answers a next state, and that state has the property. -/
def Completes (i : Instr) (s : State) (p : State → Prop) : Prop := ∃ t, exec i s = .next t ∧ p t

/-- Every word that agrees with `val` on the bits of `mask` decodes to the instruction its fields make. -/
def RowDecodes (mask val : Word) (build : Word → Instr) : Prop :=
  ∀ w : Word, w &&& mask = val → decodeWord w = .ok (build w)

/-- Every word that agrees with `val` on the bits of `mask` and is none of `except` decodes so. -/
def RowDecodesExcept (mask val : Word) (except : List Word) (build : Word → Instr) : Prop :=
  ∀ w : Word, w &&& mask = val → w ∉ except → decodeWord w = .ok (build w)

/-- The instruction is a key wait that no pressed key ends: its outcome is Blocking (spec/60_exceptions.md R210). -/
def Blocks (i : Instr) (s : State) : Prop := (∃ x, i = .ldVxK x) ∧ ∀ k : Reg, s.key[k.val] = false

/-- The parts of the state an instruction may write (spec/10_state.md R23 to R41, tables T3 and T4). -/
def partsWrittenBy : Instr → List Part
  | .cls => [.fb, .dirty, .pc]
  | .ret => [.sp, .pc]
  | .sys _ | .jp _ | .jpV0 _ => [.pc]
  | .call _ => [.stack, .sp, .pc]
  | .seImm _ _ | .sneImm _ _ | .seReg _ _ | .sneReg _ _ | .skp _ | .sknp _ => [.pc]
  | .ldImm _ _ | .addImm _ _ | .ldReg _ _ | .orReg _ _ | .andReg _ _ | .xorReg _ _ => [.V, .pc]
  | .addReg _ _ | .subReg _ _ | .shr _ _ | .subn _ _ | .shl _ _ => [.V, .pc]
  | .ldI _ | .addI _ | .ldF _ => [.I, .pc]
  | .rnd _ _ => [.V, .pc, .draws]
  | .drw _ _ _ => [.V, .fb, .dirty, .pc]
  | .ldVxDT _ | .ldVxK _ | .loadRegs _ => [.V, .pc]
  | .ldDTVx _ => [.dt, .pc]
  | .ldSTVx _ => [.st, .pc]
  | .ldB _ | .storeRegs _ => [.mem, .pc]

/-- The general registers an instruction may write (table T3). -/
def regsWrittenBy : Instr → List Reg
  | .ldImm x _ | .addImm x _ | .ldReg x _ | .orReg x _ | .andReg x _ | .xorReg x _ => [x]
  | .addReg x _ | .subReg x _ | .subn x _ => [x, Reg.vf]
  | .shr x _ | .shl x _ | .rnd x _ | .ldVxDT x | .ldVxK x => [x]
  | .drw _ _ _ => [Reg.vf]
  | .loadRegs x => (List.finRange 16).filter fun k => k ≤ x
  | .cls | .ret | .sys _ | .jp _ | .call _ | .seImm _ _ | .sneImm _ _ | .seReg _ _ | .sneReg _ _ => []
  | .ldI _ | .jpV0 _ | .skp _ | .sknp _ | .ldDTVx _ | .ldSTVx _ | .addI _ | .ldF _ | .ldB _ | .storeRegs _ => []

/-- CALLs from the given sites, each to its target, one inside the other; nothing when one of them is Invalid. -/
def nestedCalls : List (Word × Addr) → State → Option State
  | [], s => some s
  | (site, target) :: rest, s =>
    match exec (.call target) (s.setPc site) with
    | .next t => nestedCalls rest t
    | .fault _ => none
    | .refused _ => none

/-- The addresses `k` RETs in a row go to; nothing when one of them is Invalid. -/
def nestedReturns : Nat → State → Option (List Word)
  | 0, _ => some []
  | k + 1, s =>
    match exec .ret s with
    | .next t => (nestedReturns k t).map fun l => t.pc :: l
    | .fault _ => none
    | .refused _ => none

/-- `k` calls of `advance` in a row, and how many of them beep (spec/60_exceptions.md R221, R222). -/
def advanceBy : Nat → State → State × Nat
  | 0, s => (s, 0)
  | k + 1, s =>
    let r := advanceBy k s
    (r.1.advance.1, r.2 + if r.1.advance.2 then 1 else 0)

/-- The instruction sets a timer: FX15 or FX18 (spec/10_state.md R34, R35). -/
def setsTimer : Instr → Bool
  | .ldDTVx _ | .ldSTVx _ => true
  | .cls | .ret | .sys _ | .jp _ | .call _ | .seImm _ _ | .sneImm _ _ | .seReg _ _ | .ldImm _ _ | .addImm _ _
  | .ldReg _ _ | .orReg _ _ | .andReg _ _ | .xorReg _ _ | .addReg _ _ | .subReg _ _ | .shr _ _ | .subn _ _
  | .shl _ _ | .sneReg _ _ | .ldI _ | .jpV0 _ | .rnd _ _ | .drw _ _ _ | .skp _ | .sknp _ | .ldVxDT _
  | .ldVxK _ | .addI _ | .ldF _ | .ldB _ | .storeRegs _ | .loadRegs _ => false

/-- `SuccessRun s k b t`: some ticks in a row lead from `s` to `t`, `k` of them Success outcomes of instructions that set no
timer, with `b` beeps, the others Blocking outcomes that do not tick (spec/60_exceptions.md R215, R219, R220). -/
inductive SuccessRun (s : State) : Nat → Nat → State → Prop where
  | start : SuccessRun s 0 0 s
  | success {k b : Nat} {t t1 u : State} {w : Word} {i : Instr} {beep : Bool} (h : SuccessRun s k b t)
      (hf : t.fetch = some w) (hd : decodeWord w = .ok i) (ht : setsTimer i = false)
      (ho : outcome i t = .success t1) (hs : tick t = .next ⟨.cont, u, beep⟩) :
      SuccessRun s (k + 1) (b + if beep then 1 else 0) u
  | wait {k b : Nat} {t u : State} {w : Word} {i : Instr} {beep : Bool} (h : SuccessRun s k b t)
      (hf : t.fetch = some w) (hd : decodeWord w = .ok i) (ho : outcome i t = .blocking)
      (hp : t.cfg.tickOnBlocking = false) (hs : tick t = .next ⟨.cont, u, beep⟩) :
      SuccessRun s k (b + if beep then 1 else 0) u

/-! ### Sprites -/

/-- Whether the sprite with these rows, drawn at `(x0, y0)`, has a set pixel at column `x` and row `y`: row `y - y0` of
the sprite, bit 7 for column `x0`, bit 0 for column `x0 + 7` (spec/44_draw.md R170). -/
def spriteAt (rows : List Byte) (x0 y0 x y : Nat) : Bool :=
  decide (x0 ≤ x ∧ x < x0 + 8 ∧ y0 ≤ y ∧ y < y0 + rows.length) && (rows.getD (y - y0) 0).getLsbD (7 - (x - x0))

/-! ### The invariant -/

/-- What holds at reset and after every step and host operation. -/
structure State.Inv (s : State) : Prop where
  /-- Memory is in its canonical form, as its type makes it (log 5). -/
  mem_wf : Memory.wf s.mem.cells = true
  /-- `0 ≤ cc < N` (spec/10_state.md R36), so N is at least 1 (spec/00_scope.md table T2). -/
  cc_lt : s.cc < s.cfg.cyclesPerTick
  /-- A stack entry holds the address of a CALL that was fetched, or its reset value (R26, R27). -/
  stack_le : ∀ j : Fin 16, s.stack[j.val].toNat ≤ 0xFFE
  /-- "The largest value an instruction can write is 0xFFF + 0xFF = 0x10FE" (R26). -/
  pc_le : s.pc.toNat ≤ 0x10FE

/-! ### Safe steps and reachable states -/

/-- The machine runs instructions: a program is loaded and no Invalid outcome has occurred (R37, R38). -/
def State.Running (s : State) : Prop := s.loaded = true ∧ s.halted = false

/-- A safe step: the report is Continue, that is Success or Blocking, never Stop (R213). -/
def State.StepsOn (s : State) : Prop := ∃ t b, tick s = .next ⟨.cont, t, b⟩

/-- The states some sequence of steps and host operations reaches from a reset with a configuration of table T2
(R218, R230, R253). -/
inductive Reachable : State → Prop where
  | reset (c : Config) (h : 1 ≤ c.cyclesPerTick) : Reachable (State.resetWith c)
  | step {s t : State} (h : Reachable s) (hs : step s = .next t) : Reachable t
  | host {s : State} (h : Reachable s) (op : HostOp) : Reachable (op.apply s)

end Sys2Proof.Machine
end

