-- ==== Sys2Proof/Certificates/Slice0/Obligations.lean ====
section
/-! DEFINITION. The statements for the provers, by the rules of spec/. A statement that rests on a choice the spec marks
as its own (a [decision] D<n>, a [derived] or a [from general knowledge] mark) or on a log entry says so and is listed
with basis derived. -/

open Sys2Proof Sys2Proof.Machine

/-! ### Reset (spec/70_reset_and_hazards.md) -/

/-- Table T13 for every configuration. The values of `dirty`, `dt`, `st`, `cc` and `halted` are the spec's own choices
(D19, D28, D10, D13); `cfg` and `draws` are the model's own (log 1, log 2) and no value of theirs is stated but that the
configuration is the one given. -/
def Obligations.ResetIsTableT13 : Prop :=
  (∀ c : Config,
    (∀ k : Reg, (State.resetWith c).v k = 0) ∧
    (State.resetWith c).I = 0 ∧ (State.resetWith c).pc = 0x200 ∧
    (State.resetWith c).sp = 0 ∧ (∀ j : Fin 16, (State.resetWith c).stack[j.val] = 0) ∧
    (∀ (d : Fin 16) (r : Fin 5), (State.resetWith c).byte (5 * d.val + r.val) = (c.font[d.val])[r.val]) ∧
    (∀ a : Nat, 0x050 ≤ a → a ≤ 0xFFF → (State.resetWith c).byte a = 0) ∧
    (∀ x y : Nat, x < 64 → y < 32 → (State.resetWith c).fb.pixel x y = false) ∧
    (State.resetWith c).dirty = false ∧
    (∀ k : Reg, (State.resetWith c).key[k.val] = false) ∧
    (State.resetWith c).dt = 0 ∧ (State.resetWith c).st = 0 ∧ (State.resetWith c).cc = 0 ∧
    (State.resetWith c).loaded = false ∧ (State.resetWith c).halted = false ∧
    (State.resetWith c).cfg = c) ∧
  State.reset = State.resetWith Config.default

/-! ### Families 0, 1 and 2 (spec/40_flow.md) -/

/-- R122, R123: 0NNN and 1NNN set `pc` to NNN and change nothing else; in particular nothing is pushed. The corner cases:
the word 0xF090, which a machine that jumped to address 0 fetches when the default font is there, is Invalid(BAD_OPCODE);
a jump to its own address is a Success that leaves the state as it is. -/
def Obligations.JumpsSetPcToNNN : Prop :=
  RowDecodesExcept 0xF000 0x0000 [0x00E0, 0x00EE] (fun w => .sys (fieldNNN w)) ∧
  RowDecodes 0xF000 0x1000 (fun w => .jp (fieldNNN w)) ∧
  (∀ s : State, execute 0xF090 s = .invalid .badOpcode) ∧
  (∀ (w : Word) (s : State), s.pc.toNat ≤ 0xFFF → w.toNat = 0x1000 + s.pc.toNat →
    execute w s = .success s) ∧
  ∀ (n : Addr) (s : State),
    Completes (.sys n) s (fun t => t.pc.toNat = n.toNat ∧ Frame [.pc] s t) ∧
    Completes (.jp n) s (fun t => t.pc.toNat = n.toNat ∧ Frame [.pc] s t)

/-- R124: CALL pushes its own address and jumps; with a full stack it is Invalid(STACK_OVERFLOW). From an empty stack 16
CALLs in a row succeed and the 17th is Invalid, whatever their addresses, so also a CALL of its own address. -/
def Obligations.CallPushesItsOwnAddress : Prop :=
  RowDecodes 0xF000 0x2000 (fun w => .call (fieldNNN w)) ∧
  ∀ (n : Addr) (s : State),
    (s.sp.val = 16 → exec (.call n) s = .fault .stackOverflow) ∧
    (∀ h : s.sp.val < 16, Completes (.call n) s fun t =>
      t.stack[s.sp.val] = s.pc ∧ (∀ j : Fin 16, j.val ≠ s.sp.val → t.stack[j.val] = s.stack[j.val]) ∧
      t.sp.val = s.sp.val + 1 ∧ t.pc.toNat = n.toNat ∧ Frame [.stack, .sp, .pc] s t) ∧
    ∀ sites : List (Word × Addr), s.sp.val = 0 → ((nestedCalls sites s).isSome = true ↔ sites.length ≤ 16)

/-- R121: RET goes to the popped address + 2, keeps the entry it read, and is Invalid(STACK_UNDERFLOW) when the stack is
empty. The corner cases: after a CALL it goes to the instruction after that CALL; from an entry that is the address of a
fetched CALL (at most 0xFFE, the invariant `State.Inv`) the sum is at most 0x1000; at 0x1000 and 0xFFF the next fetch is
out of range. -/
def Obligations.RetGoesPastTheCall : Prop :=
  decodeWord 0x00EE = .ok .ret ∧
  ∀ s : State,
    (s.sp.val = 0 → exec .ret s = .fault .stackUnderflow) ∧
    (∀ (j : Fin 16), s.sp.val = j.val + 1 → Completes .ret s fun t =>
      t.pc.toNat = (s.stack[j.val].toNat + 2) % 2 ^ 16 ∧ t.sp.val = j.val ∧ Frame [.sp, .pc] s t ∧
      (s.stack[j.val].toNat ≤ 0xFFE → t.pc.toNat ≤ 0x1000) ∧
      (t.pc.toNat = 0x1000 ∨ t.pc.toNat = 0xFFF → t.fetch = none)) ∧
    ∀ (n : Addr) (t : State), exec (.call n) s = .next t → Completes .ret t fun u => u.pc = s.pc + 2 ∧ u.sp = s.sp

/-- R27, R121, R124 and the source's stack discipline (spec/95_test_vectors.md E4): calls nest as long as the stack has
room, one more is refused, and the returns go to the call sites + 2 in reverse call order. -/
def Obligations.NestedCallsReturnInReverse : Prop :=
  ∀ (sites : List (Word × Addr)) (s : State),
    (s.sp.val + sites.length ≤ 16 → ∃ t, nestedCalls sites s = some t ∧ t.sp.val = s.sp.val + sites.length ∧
      nestedReturns sites.length t = some ((sites.map fun c => c.1 + 2).reverse)) ∧
    (16 < s.sp.val + sites.length → nestedCalls sites s = none)

/-- R120: every pixel 0, `dirty` set. That `dirty` is set even when no pixel changed is the spec's own choice (D19). -/
def Obligations.ClsBlanksTheScreen : Prop :=
  ∀ s : State, Completes .cls s fun t =>
    (∀ x y : Nat, x < 64 → y < 32 → t.fb.pixel x y = false) ∧ t.dirty = true ∧ t.pc = s.pc + 2 ∧
    Frame [.fb, .dirty, .pc] s t

/-! ### Families 3, 4, 5 and 9 (spec/41_skip.md) -/

/-- R130, R131: 3XNN skips when VX is NN, 4XNN when it is not; nothing but `pc` changes. -/
def Obligations.ByteSkipsCompareVxWithNN : Prop :=
  RowDecodes 0xF000 0x3000 (fun w => .seImm (fieldX w) (fieldNN w)) ∧
  RowDecodes 0xF000 0x4000 (fun w => .sneImm (fieldX w) (fieldNN w)) ∧
  ∀ (x : Reg) (nn : Byte) (s : State),
    Completes (.seImm x nn) s (fun t =>
      t.pc = (if (s.v x).toNat = nn.toNat then s.pc + 4 else s.pc + 2) ∧ Frame [.pc] s t) ∧
    Completes (.sneImm x nn) s (fun t =>
      t.pc = (if (s.v x).toNat = nn.toNat then s.pc + 2 else s.pc + 4) ∧ Frame [.pc] s t)

/-- R132, R133: 5XY0 skips when VX is VY, 9XY0 when it is not; the words with another low nibble are
Invalid(BAD_OPCODE). -/
def Obligations.RegisterSkipsCompareVxWithVy : Prop :=
  RowDecodes 0xF00F 0x5000 (fun w => .seReg (fieldX w) (fieldY w)) ∧
  RowDecodes 0xF00F 0x9000 (fun w => .sneReg (fieldX w) (fieldY w)) ∧
  (∀ (w : Word) (s : State), (fieldF w = 5 ∨ fieldF w = 9) → fieldN w ≠ 0 → execute w s = .invalid .badOpcode) ∧
  ∀ (x y : Reg) (s : State),
    Completes (.seReg x y) s (fun t =>
      t.pc = (if (s.v x).toNat = (s.v y).toNat then s.pc + 4 else s.pc + 2) ∧ Frame [.pc] s t) ∧
    Completes (.sneReg x y) s (fun t =>
      t.pc = (if (s.v x).toNat = (s.v y).toNat then s.pc + 2 else s.pc + 4) ∧ Frame [.pc] s t)

/-! ### Families 6, 7 and 8 (spec/42_alu.md) -/

/-- R140, R142: 6XNN loads the byte, 8XY0 copies VY; no flag. -/
def Obligations.LoadsWriteVxOnly : Prop :=
  RowDecodes 0xF000 0x6000 (fun w => .ldImm (fieldX w) (fieldNN w)) ∧
  RowDecodes 0xF00F 0x8000 (fun w => .ldReg (fieldX w) (fieldY w)) ∧
  ∀ (x y : Reg) (nn : Byte) (s : State),
    Completes (.ldImm x nn) s (fun t =>
      t.v x = nn ∧ OtherRegsSame [x] s t ∧ t.pc = s.pc + 2 ∧ Frame [.V, .pc] s t) ∧
    Completes (.ldReg x y) s (fun t =>
      t.v x = s.v y ∧ OtherRegsSame [x] s t ∧ t.pc = s.pc + 2 ∧ Frame [.V, .pc] s t)

/-- R141 (and 90_conflicts.md C1): the sum mod 256, VF not written even on overflow. -/
def Obligations.AddByteWrapsWithoutFlag : Prop :=
  RowDecodes 0xF000 0x7000 (fun w => .addImm (fieldX w) (fieldNN w)) ∧
  ∀ (x : Reg) (nn : Byte) (s : State), Completes (.addImm x nn) s fun t =>
    (t.v x).toNat = ((s.v x).toNat + nn.toNat) % 256 ∧ OtherRegsSame [x] s t ∧ t.pc = s.pc + 2 ∧ Frame [.V, .pc] s t

/-- R143, R144, R145: OR, AND and XOR bit by bit; VF is not written as a flag. -/
def Obligations.BitwiseOpsWorkBitByBit : Prop :=
  RowDecodes 0xF00F 0x8001 (fun w => .orReg (fieldX w) (fieldY w)) ∧
  RowDecodes 0xF00F 0x8002 (fun w => .andReg (fieldX w) (fieldY w)) ∧
  RowDecodes 0xF00F 0x8003 (fun w => .xorReg (fieldX w) (fieldY w)) ∧
  ∀ (x y : Reg) (s : State),
    Completes (.orReg x y) s (fun t =>
      (∀ b : Nat, (t.v x).getLsbD b = ((s.v x).getLsbD b || (s.v y).getLsbD b)) ∧
      OtherRegsSame [x] s t ∧ t.pc = s.pc + 2 ∧ Frame [.V, .pc] s t) ∧
    Completes (.andReg x y) s (fun t =>
      (∀ b : Nat, (t.v x).getLsbD b = ((s.v x).getLsbD b && (s.v y).getLsbD b)) ∧
      OtherRegsSame [x] s t ∧ t.pc = s.pc + 2 ∧ Frame [.V, .pc] s t) ∧
    Completes (.xorReg x y) s (fun t =>
      (∀ b : Nat, (t.v x).getLsbD b = ((s.v x).getLsbD b ^^ (s.v y).getLsbD b)) ∧ (x = y → t.v x = 0) ∧
      OtherRegsSame [x] s t ∧ t.pc = s.pc + 2 ∧ Frame [.V, .pc] s t)

/-- 8XY4 (spec/42_alu.md rules on ADD Vx, Vy and its carry law). That the flag is the last write, so that it survives
when X = 0xF, is the spec's own choice (D6). -/
def Obligations.AddRegisterSetsCarry : Prop :=
  ∀ (x y : Reg) (s : State), Completes (.addReg x y) s fun t =>
    (x ≠ Reg.vf → (t.v x).toNat = ((s.v x).toNat + (s.v y).toNat) % 256) ∧
    (t.v Reg.vf).toNat = (if 256 ≤ (s.v x).toNat + (s.v y).toNat then 1 else 0) ∧
    OtherRegsSame [x, Reg.vf] s t ∧ t.pc = s.pc + 2 ∧ Frame [.V, .pc] s t

/-- 8XY5 and 8XY7 (spec/42_alu.md rules on SUB and SUBN and their borrow law): with a borrow the result is
`p - q + 256` and VF = 0, otherwise `p - q` and VF = 1. The order of the two writes is the spec's own choice (D6). -/
def Obligations.SubtractionsSetNotBorrow : Prop :=
  ∀ (x y : Reg) (s : State),
    Completes (.subReg x y) s (fun t =>
      (x ≠ Reg.vf → (t.v x).toNat =
        (if (s.v x).toNat < (s.v y).toNat then (s.v x).toNat + 256 - (s.v y).toNat
          else (s.v x).toNat - (s.v y).toNat)) ∧
      (t.v Reg.vf).toNat = (if (s.v x).toNat < (s.v y).toNat then 0 else 1) ∧
      OtherRegsSame [x, Reg.vf] s t ∧ t.pc = s.pc + 2 ∧ Frame [.V, .pc] s t) ∧
    Completes (.subn x y) s (fun t =>
      (x ≠ Reg.vf → (t.v x).toNat =
        (if (s.v y).toNat < (s.v x).toNat then (s.v y).toNat + 256 - (s.v x).toNat
          else (s.v y).toNat - (s.v x).toNat)) ∧
      (t.v Reg.vf).toNat = (if (s.v y).toNat < (s.v x).toNat then 0 else 1) ∧
      OtherRegsSame [x, Reg.vf] s t ∧ t.pc = s.pc + 2 ∧ Frame [.V, .pc] s t)

/-- 8XY6 and 8XYE: one bit, zero fill, of VX; VF keeps its value unless it is the destination, and the field Y does not
matter. The source's deviation (no VF update) is kept by the spec's own choice (D7). -/
def Obligations.ShiftsLeaveVfAlone : Prop :=
  ∀ (x y : Reg) (s : State),
    Completes (.shr x y) s (fun t =>
      (t.v x).toNat = (s.v x).toNat / 2 ∧ OtherRegsSame [x] s t ∧ t.pc = s.pc + 2 ∧ Frame [.V, .pc] s t) ∧
    Completes (.shl x y) s (fun t =>
      (t.v x).toNat = (2 * (s.v x).toNat) % 256 ∧ OtherRegsSame [x] s t ∧ t.pc = s.pc + 2 ∧ Frame [.V, .pc] s t) ∧
    ∀ z : Reg, exec (.shr x z) s = exec (.shr x y) s ∧ exec (.shl x z) s = exec (.shl x y) s

/-! ### Families A, B and C (spec/43_index_jump_rand.md) -/

/-- R160: `I` becomes NNN, so it is at most 0xFFF. -/
def Obligations.LoadIndexSetsI : Prop :=
  RowDecodes 0xF000 0xA000 (fun w => .ldI (fieldNNN w)) ∧
  ∀ (n : Addr) (s : State), Completes (.ldI n) s fun t =>
    t.I.toNat = n.toNat ∧ t.I.toNat ≤ 0xFFF ∧ t.pc = s.pc + 2 ∧ Frame [.I, .pc] s t

/-- BNNN: always V0, and the sum is not masked to 12 bits, the spec's own choice (D21). -/
def Obligations.IndexedJumpAddsV0 : Prop :=
  ∀ (n : Addr) (s : State), Completes (.jpV0 n) s fun t =>
    t.pc.toNat = n.toNat + (s.v 0).toNat ∧ t.pc.toNat ≤ 0x10FE ∧ Frame [.pc] s t

/-- CXNN: for whatever byte is drawn, VX is that byte AND NN, so every bit outside NN is 0. The byte is a free value of
the model (log 2; the spec's parameter `rand`, D18), and each execution uses up one. -/
def Obligations.RandomByteIsMasked : Prop :=
  (∀ (r : Byte) (x : Reg) (nn : Byte) (s : State), ∃ t, rndWith r x nn s = .success t ∧
    t.v x = r &&& nn ∧ OtherRegsSame [x] s t ∧ t.pc = s.pc + 2 ∧ t.draws = s.draws + 1 ∧
    Frame [.V, .pc, .draws] s t) ∧
  ∀ (x : Reg) (nn : Byte) (s : State),
    outcome (.rnd x nn) s = rndWith (Config.randomByte s.draws) x nn s ∧
    Completes (.rnd x nn) s fun t => ∀ b : Nat, nn.getLsbD b = false → (t.v x).getLsbD b = false

/-! ### Family D (spec/44_draw.md) -/

/-- DXYN, when its bytes are in memory and the edge policy lets it draw: every pixel on screen is XORed with the
sprite's pixel there, VF is 1 exactly when a set sprite pixel met a set pixel and 0 otherwise, `dirty` is set. The range
check, the edge policy, the bit order, VF = 0 and the unconditional `dirty` are the spec's own choices (D2, D4, D16, D5,
D19). -/
def Obligations.DrawXorsTheSprite : Prop :=
  ∀ (x y : Reg) (n : RowCount) (s : State),
    (n.val = 0 ∨ s.I.toNat + n.val - 1 ≤ 0xFFF) →
    (s.cfg.drawOffscreen = .clip ∨ n.val = 0 ∨ ((s.v x).toNat + 7 ≤ 63 ∧ (s.v y).toNat + n.val - 1 ≤ 31)) →
    Completes (.drw x y n) s fun t =>
      (∀ px py : Nat, px < 64 → py < 32 → t.fb.pixel px py =
        (s.fb.pixel px py ^^ spriteAt (s.bytes s.I.toNat n.val) (s.v x).toNat (s.v y).toNat px py)) ∧
      (t.v Reg.vf = 1 ∨ t.v Reg.vf = 0) ∧
      (t.v Reg.vf = 1 ↔ ∃ px py : Nat, px < 64 ∧ py < 32 ∧ s.fb.pixel px py = true ∧
        spriteAt (s.bytes s.I.toNat n.val) (s.v x).toNat (s.v y).toNat px py = true) ∧
      t.dirty = true ∧ OtherRegsSame [Reg.vf] s t ∧ t.pc = s.pc + 2 ∧ Frame [.V, .fb, .dirty, .pc] s t

/-- DXYN stops in two cases: a byte of the sprite beyond 0xFFF, checked first, and, under the policy `invalid`, a box
that leaves the screen (the spec's own choices D2 and D4). -/
def Obligations.DrawStopsOutsideItsRanges : Prop :=
  ∀ (x y : Reg) (n : RowCount) (s : State), 0 < n.val →
    (0xFFF < s.I.toNat + n.val - 1 → exec (.drw x y n) s = .fault .memRange) ∧
    (s.I.toNat + n.val - 1 ≤ 0xFFF → s.cfg.drawOffscreen = .invalid →
      (63 < (s.v x).toNat + 7 ∨ 31 < (s.v y).toNat + n.val - 1) → exec (.drw x y n) s = .fault .drawOffscreen)

/-- A sprite drawn twice at the same place (with neither coordinate in VF) restores the framebuffer; the second draw
reports a collision exactly when some pixel the sprite sets was 0 before the first (90_conflicts.md C2; log 14 on the
corner case's wider wording). -/
def Obligations.DrawingTwiceRestoresTheScreen : Prop :=
  ∀ (x y : Reg) (n : RowCount) (s t : State), x ≠ Reg.vf → y ≠ Reg.vf → exec (.drw x y n) s = .next t →
    Completes (.drw x y n) t fun u =>
      u.fb = s.fb ∧
      (u.v Reg.vf = 1 ↔ ∃ px py : Nat, px < 64 ∧ py < 32 ∧ s.fb.pixel px py = false ∧
        spriteAt (s.bytes s.I.toNat n.val) (s.v x).toNat (s.v y).toNat px py = true)

/-! ### Family E (spec/45_keys.md) -/

/-- EX9E and EXA1: the skip on the key VX names; a value above 15 is Invalid(KEY_RANGE), the spec's own choice (D12). -/
def Obligations.KeySkipsTestTheKeyLevel : Prop :=
  ∀ (x : Reg) (s : State),
    (∀ k : Reg, (s.v x).toNat = k.val →
      Completes (.skp x) s (fun t => t.pc = (if s.key[k.val] = true then s.pc + 4 else s.pc + 2) ∧ Frame [.pc] s t) ∧
      Completes (.sknp x) s (fun t => t.pc = (if s.key[k.val] = true then s.pc + 2 else s.pc + 4) ∧ Frame [.pc] s t)) ∧
    (15 < (s.v x).toNat → exec (.skp x) s = .fault .keyRange ∧ exec (.sknp x) s = .fault .keyRange)

/-! ### Family F (spec/46_fx.md) -/

/-- R190: VX becomes the delay timer's value, as it was before the timer tick of the step. -/
def Obligations.DelayTimerIsRead : Prop :=
  RowDecodes 0xF0FF 0xF007 (fun w => .ldVxDT (fieldX w)) ∧
  ∀ (x : Reg) (s : State), Completes (.ldVxDT x) s fun t =>
    t.v x = s.dt ∧ t.advance.1.v x = s.dt ∧ OtherRegsSame [x] s t ∧ t.pc = s.pc + 2 ∧ Frame [.V, .pc] s t

/-- FX15 and FX18: a timer becomes VX; a timer tick of the same step then acts on the new value, which is the [derived]
remark of the FX15 rule. -/
def Obligations.TimersAreSet : Prop :=
  ∀ (x : Reg) (s : State),
    Completes (.ldDTVx x) s (fun t => t.dt = s.v x ∧ t.pc = s.pc + 2 ∧ Frame [.dt, .pc] s t ∧
      (s.cfg.cyclesPerTick ≤ s.cc + 1 → t.advance.1.dt.toNat = (s.v x).toNat - 1)) ∧
    Completes (.ldSTVx x) s (fun t => t.st = s.v x ∧ t.pc = s.pc + 2 ∧ Frame [.st, .pc] s t ∧
      (s.cfg.cyclesPerTick ≤ s.cc + 1 → t.advance.1.st.toNat = (s.v x).toNat - 1))

/-- FX0A: with a key pressed VX becomes the highest pressed index; with none the outcome is Blocking, and the step
changes nothing, or only advances the counter and the timers when TICK_ON_BLOCKING is set. The level test and the
parameter are the spec's own choices (D8, D9). -/
def Obligations.KeyWaitTakesTheHighestKey : Prop :=
  ∀ (x : Reg) (s : State),
    (∀ k : Reg, s.key[k.val] = true → (∀ j : Reg, k < j → s.key[j.val] = false) →
      Completes (.ldVxK x) s fun t =>
        (t.v x).toNat = k.val ∧ OtherRegsSame [x] s t ∧ t.pc = s.pc + 2 ∧ Frame [.V, .pc] s t) ∧
    ((∀ k : Reg, s.key[k.val] = false) →
      outcome (.ldVxK x) s = .blocking ∧ exec (.ldVxK x) s = .next s ∧
      ∀ w : Word, s.Running → s.fetch = some w → decodeWord w = .ok (.ldVxK x) →
        (s.cfg.tickOnBlocking = false → tick s = .next ⟨.cont, s, false⟩) ∧
        (s.cfg.tickOnBlocking = true → tick s = .next ⟨.cont, s.advance.1, s.advance.2⟩))

/-- FX1E: the sum mod 2^16, VF not written. The 16-bit wrap is the spec's own choice (D22). -/
def Obligations.AddIndexWrapsWithoutFlag : Prop :=
  ∀ (x : Reg) (s : State), Completes (.addI x) s fun t =>
    t.I.toNat = (s.I.toNat + (s.v x).toNat) % 2 ^ 16 ∧ t.pc = s.pc + 2 ∧ Frame [.I, .pc] s t

/-- FX29: 5 VX for a digit 0 to 15, and Invalid(FONT_RANGE) above, the spec's own reading of the bound (D11). -/
def Obligations.GlyphAddressIsFiveTimesVx : Prop :=
  ∀ (x : Reg) (s : State),
    ((s.v x).toNat ≤ 15 → Completes (.ldF x) s fun t =>
      t.I.toNat = 5 * (s.v x).toNat ∧ t.I.toNat + 4 < 80 ∧ t.pc = s.pc + 2 ∧ Frame [.I, .pc] s t) ∧
    (15 < (s.v x).toNat → exec (.ldF x) s = .fault .fontRange)

/-- FX33: the three decimal digits at `I`, every other byte as before; Invalid(MEM_RANGE) when the third address is
beyond 0xFFF, the spec's own choice (D2). -/
def Obligations.BcdStoresThreeDigits : Prop :=
  ∀ (x : Reg) (s : State),
    (s.I.toNat + 2 ≤ 0xFFF → Completes (.ldB x) s fun t =>
      (t.byte s.I.toNat).toNat ≤ 9 ∧ (t.byte (s.I.toNat + 1)).toNat ≤ 9 ∧ (t.byte (s.I.toNat + 2)).toNat ≤ 9 ∧
      (s.v x).toNat = 100 * (t.byte s.I.toNat).toNat + 10 * (t.byte (s.I.toNat + 1)).toNat
        + (t.byte (s.I.toNat + 2)).toNat ∧
      OtherBytesSame s.I.toNat 3 s t ∧ t.pc = s.pc + 2 ∧ Frame [.mem, .pc] s t) ∧
    (0xFFF < s.I.toNat + 2 → exec (.ldB x) s = .fault .memRange)

/-- FX55: V0 to VX at `I` and up, every other byte as before, `I` unchanged, also where `I` points into the font (D20);
Invalid(MEM_RANGE) when the last address is beyond 0xFFF, the spec's own choice (D2). -/
def Obligations.RegistersAreStored : Prop :=
  ∀ (x : Reg) (s : State),
    (s.I.toNat + x.val ≤ 0xFFF → Completes (.storeRegs x) s fun t =>
      (∀ k : Reg, k ≤ x → t.byte (s.I.toNat + k.val) = s.v k) ∧
      OtherBytesSame s.I.toNat (x.val + 1) s t ∧ t.pc = s.pc + 2 ∧ Frame [.mem, .pc] s t) ∧
    (0xFFF < s.I.toNat + x.val → exec (.storeRegs x) s = .fault .memRange)

/-- FX65: V0 to VX from `I` and up, the registers above VX and `I` unchanged; Invalid(MEM_RANGE) when the last address is
beyond 0xFFF, the spec's own choice (D2). -/
def Obligations.RegistersAreLoaded : Prop :=
  ∀ (x : Reg) (s : State),
    (s.I.toNat + x.val ≤ 0xFFF → Completes (.loadRegs x) s fun t =>
      (∀ k : Reg, k ≤ x → t.v k = s.byte (s.I.toNat + k.val)) ∧ (∀ k : Reg, x < k → t.v k = s.v k) ∧
      t.pc = s.pc + 2 ∧ Frame [.V, .pc] s t) ∧
    (0xFFF < s.I.toNat + x.val → exec (.loadRegs x) s = .fault .memRange)

/-- FX55 and then FX65 with the same X and `I`, whatever happened to the registers between, gives V0 to VX their values
back. -/
def Obligations.StoredRegistersLoadBack : Prop :=
  ∀ (x : Reg) (s t u : State), exec (.storeRegs x) s = .next t →
    Frame [.V, .pc] t u → Completes (.loadRegs x) u fun r => ∀ k : Reg, k ≤ x → r.v k = s.v k

/-! ### Fetching and stepping (spec/20_memory.md, spec/60_exceptions.md) -/

/-- The fetch forms the big-endian word of two bytes at any `pc` up to 0xFFE, odd or even, and nothing above (the spec's
own choice D3); what was stored there before is what is fetched. -/
def Obligations.FetchIsBigEndian : Prop :=
  ∀ s : State,
    (s.pc.toNat ≤ 0xFFE → ∃ w, s.fetch = some w ∧
      w.toNat = 256 * (s.byte s.pc.toNat).toNat + (s.byte (s.pc.toNat + 1)).toNat) ∧
    (0xFFE < s.pc.toNat → s.fetch = none) ∧
    ∀ (w : Word) (a : Nat), a ≤ 0xFFE →
      ((s.setBytes a [hiByte w, loByte w]).setPc (BitVec.ofNat 16 a)).fetch = some w

/-- When the two bytes at `pc` decode to an instruction, the step is `exec` of it: an Invalid outcome sets the halted
latch and reports Stop, a Success is followed by `advance`, and a Blocking changes nothing (or, under TICK_ON_BLOCKING,
advances). -/
def Obligations.StepRunsTheDecodedInstruction : Prop :=
  ∀ (s : State) (i : Instr), s.Running → s.pc.toNat ≤ 0xFFE →
    decode [s.byte s.pc.toNat, s.byte (s.pc.toNat + 1)] = .ok (i, []) →
    i.wf = true ∧
    (∀ c, exec i s = .fault c →
      tick s = .next ⟨.stop c s.pc s.fetch, { s with halted := true }, false⟩ ∧
      step s = .next { s with halted := true }) ∧
    (∀ t, exec i s = .next t → ¬ (Blocks i s ∧ s.cfg.tickOnBlocking = false) →
      tick s = .next ⟨.cont, t.advance.1, t.advance.2⟩ ∧ step s = .next t.advance.1) ∧
    (Blocks i s → s.cfg.tickOnBlocking = false → tick s = .next ⟨.cont, s, false⟩ ∧ step s = .next s)

/-- The words of table T10, a fetch above 0xFFE, a machine that is halted and one that is not loaded: what the step
reports, and that it changes nothing but the halted latch in the first two (the spec's own choices D3, D13, D14, D17). -/
def Obligations.StepWithoutAnInstruction : Prop :=
  ∀ s : State,
    (∀ (w : Word) (e : Reject), s.Running → s.fetch = some w → decodeWord w = .error e →
      tick s = .next ⟨.stop .badOpcode s.pc (some w), { s with halted := true }, false⟩ ∧
      step s = .next { s with halted := true }) ∧
    (s.Running → 0xFFE < s.pc.toNat →
      tick s = .next ⟨.stop .fetchRange s.pc none, { s with halted := true }, false⟩ ∧
      step s = .next { s with halted := true }) ∧
    (s.halted = true → tick s = .next ⟨.halted, s, false⟩ ∧ step s = .next s) ∧
    (s.halted = false → s.loaded = false → tick s = .next ⟨.notLoaded, s, false⟩ ∧ step s = .next s)

/-- Invalid is precise: a step that reports Stop leaves every part of the state but the halted latch as it was, gives no
beep, and reports the `pc` and the word of the failing instruction (the latch is the spec's own choice D13). -/
def Obligations.InvalidIsPrecise : Prop :=
  ∀ (s t : State) (c : Fault) (p : Word) (w : Option Word) (b : Bool),
    tick s = .next ⟨.stop c p w, t, b⟩ →
      t = { s with halted := true } ∧ s.Running ∧ p = s.pc ∧ w = s.fetch ∧ b = false ∧
      (c = .fetchRange ↔ 0xFFE < s.pc.toNat)

/-- A step always answers a next state: it neither faults nor is refused, whatever the state. -/
def Obligations.StepAlwaysAnswers : Prop :=
  ∀ s : State, ∃ t, step s = .next t

/-- `advance`: one more successful step counted, or, on the step that completes a period, the timer tick: both timers
down by one with floor 0, and a beep exactly when the sound timer was not 0 (the counter's form is the spec's own choice
D10). -/
def Obligations.TimerTickEffects : Prop :=
  ∀ s : State, Frame [.cc, .dt, .st] s s.advance.1 ∧
    (s.cc + 1 < s.cfg.cyclesPerTick →
      s.advance.1.cc = s.cc + 1 ∧ s.advance.1.dt = s.dt ∧ s.advance.1.st = s.st ∧ s.advance.2 = false) ∧
    (s.cfg.cyclesPerTick ≤ s.cc + 1 →
      s.advance.1.cc = 0 ∧ s.advance.1.dt.toNat = s.dt.toNat - 1 ∧ s.advance.1.st.toNat = s.st.toNat - 1 ∧
      (s.advance.2 = true ↔ 0 < s.st.toNat))

/-- The cadence of `advance` in closed form: after `k` calls of it the timers have gone down by the number of whole periods
and no further than 0, and there was one beep for each step of the sound timer. -/
def Obligations.TimerCadence : Prop :=
  ∀ (k : Nat) (s : State), s.cc < s.cfg.cyclesPerTick →
    (advanceBy k s).1.cc = (s.cc + k) % s.cfg.cyclesPerTick ∧
    (advanceBy k s).1.dt.toNat = s.dt.toNat - (s.cc + k) / s.cfg.cyclesPerTick ∧
    (advanceBy k s).1.st.toNat = s.st.toNat - (s.cc + k) / s.cfg.cyclesPerTick ∧
    (advanceBy k s).2 = min s.st.toNat ((s.cc + k) / s.cfg.cyclesPerTick)

/-- The cadence of the machine: over any run of ticks with `k` Success outcomes, none of them FX15 or FX18, and any number
of Blocking ones that do not tick, the counter, the timers and the beeps are as after `k` calls of `advance` (the counter's
form is the spec's own choice D10, the Blocking parameter D9). -/
def Obligations.RunsKeepTheTimerCadence : Prop :=
  ∀ (k b : Nat) (s t : State), SuccessRun s k b t → s.cc < s.cfg.cyclesPerTick →
    t.cfg = s.cfg ∧ t.cc = (s.cc + k) % s.cfg.cyclesPerTick ∧
    t.dt.toNat = s.dt.toNat - (s.cc + k) / s.cfg.cyclesPerTick ∧
    t.st.toNat = s.st.toNat - (s.cc + k) / s.cfg.cyclesPerTick ∧
    b = min s.st.toNat ((s.cc + k) / s.cfg.cyclesPerTick)

/-! ### Whole-machine rules -/

/-- The three outcomes of an instruction are told apart by their tag, and `exec` answers each in the host's form: Success
with its state, Invalid with its reason, Blocking with the state unchanged (log 3). Only FX0A blocks, and it does so
exactly when no key is pressed (the level test is the spec's own choice D8). -/
def Obligations.OutcomesAreTagged : Prop :=
  ∀ (i : Instr) (s : State),
    (outcome i s = .blocking ↔ Blocks i s) ∧ (outcome i s = .blocking → exec i s = .next s) ∧
    (∀ t, outcome i s = .success t → exec i s = .next t) ∧
    (∀ c, outcome i s = .invalid c ↔ exec i s = .fault c)

/-- Every instruction writes only the parts of the state and only the general registers that tables T3 and T4 and the
state rules of spec/10_state.md give it. -/
def Obligations.InstructionsWriteOnlyTheirParts : Prop :=
  ∀ (i : Instr) (s t : State), exec i s = .next t → Frame (partsWrittenBy i) s t ∧ OtherRegsSame (regsWrittenBy i) s t

/-- No step changes the key matrix, the loaded flag or the configuration, and no step clears the halted latch: those are
the host's (the configuration is the model's own field, log 1). -/
def Obligations.StepsLeaveTheHostsStateAlone : Prop :=
  ∀ s t : State, step s = .next t →
    t.key = s.key ∧ t.loaded = s.loaded ∧ t.cfg = s.cfg ∧ (s.halted = true → t = s)

/-- No instruction reads `dirty`, `st` or `cc`: with other values there it ends the same way, and every other part of
the next state is the same. -/
def Obligations.NoInstructionReadsDirtyStCc : Prop :=
  ∀ (i : Instr) (s : State) (d : Bool) (u : Byte) (c : Nat),
    (∀ t, exec i s = .next t → ∃ t', exec i { s with dirty := d, st := u, cc := c } = .next t' ∧
      Frame [.dirty, .st, .cc] t t') ∧
    (∀ f, exec i s = .fault f → exec i { s with dirty := d, st := u, cc := c } = .fault f)

/-- What is beside the state of R20 acts as the arguments the spec makes of it: the position in the draws is read by CXNN
only. With another position every other instruction ends the same way, with the same state of R20 (the position is the
model's own field, log 2). -/
def Obligations.OnlyRndReadsTheDraws : Prop :=
  ∀ (i : Instr) (s : State) (d : Nat), (∀ x nn, i ≠ .rnd x nn) →
    (∀ t, outcome i s = .success t → t.draws = s.draws ∧ outcome i { s with draws := d } = .success { t with draws := d }) ∧
    (outcome i s = .blocking → outcome i { s with draws := d } = .blocking) ∧
    (∀ c, outcome i s = .invalid c → outcome i { s with draws := d } = .invalid c)

/-- The stack entries at and above `sp` are not observable: from two states that differ only there a step gives the same
report and beep and again two states that differ only there. -/
def Obligations.StaleStackEntriesAreUnobservable : Prop :=
  ∀ (s s' : State) (r : Report) (b : Bool) (stk : Vector Word 16),
    (∀ j : Fin 16, j.val < s.sp.val → stk[j.val] = s.stack[j.val]) →
    tick s = .next ⟨r, s', b⟩ →
    ∃ stk' : Vector Word 16, tick { s with stack := stk } = .next ⟨r, { s' with stack := stk' }, b⟩ ∧
      ∀ j : Fin 16, j.val < s'.sp.val → stk'[j.val] = s'.stack[j.val]

/-- Every step keeps the invariant: memory in canonical form, `0 ≤ cc < N`, the stack entries addresses of CALLs, and
`pc` at most 0x10FE. -/
def Obligations.StepKeepsTheInvariant : Prop :=
  ∀ s t : State, s.Inv → step s = .next t → t.Inv

/-- The invariant holds at reset, with the default configuration and with any whose N is at least 1. -/
def Obligations.ResetMeetsTheInvariant : Prop :=
  State.reset.Inv ∧ ∀ c : Config, 1 ≤ c.cyclesPerTick → (State.resetWith c).Inv

/-- Every host operation keeps the invariant. -/
def Obligations.HostOperationsKeepTheInvariant : Prop :=
  ∀ (s : State) (op : HostOp), s.Inv → (op.apply s).Inv

/-- From every state that meets the invariant, reached or not, a RET goes to at most 0x1000; and every state that steps and
host operations reach meets the invariant. -/
def Obligations.ReachableStatesAreSound : Prop :=
  (∀ s t : State, s.Inv → exec .ret s = .next t → t.pc.toNat ≤ 0x1000) ∧
  ∀ s : State, Reachable s → s.Inv ∧ ∀ t : State, exec .ret s = .next t → t.pc.toNat ≤ 0x1000

/-! ### Encoding (spec/30_encoding.md) -/

/-- Decoding the encoding of any well-formed instruction gives it back, as a word and as bytes: every operand at every
value its field admits. -/
def Obligations.DecodeInvertsEncode : Prop :=
  ∀ i : Instr, i.wf = true → decodeWord (encodeWord i) = .ok i ∧ decode (encode i) = .ok (i, [])

/-- Every word that decodes is the encoding of what it decodes to, and that is well-formed: no bit of a word is
dropped. -/
def Obligations.EncodeInvertsDecode : Prop :=
  ∀ (w : Word) (i : Instr), decodeWord w = .ok i → i.wf = true ∧ encodeWord i = w

/-- The decoder by families gives every word what the masks and matches of spec/opcode_table.json, tried in the table's
order, give it. -/
def Obligations.DecoderAgreesWithTheOpcodeTable : Prop :=
  ∀ w : Word, (decodeWord w).toOption = decodeByTable w

/-- The rejected words are exactly those of table T10. -/
def Obligations.RejectedWordsAreTableT10 : Prop :=
  ∀ w : Word, (∃ e, decodeWord w = .error e) ↔
    (fieldF w = 5 ∧ fieldN w ≠ 0) ∨
    (fieldF w = 8 ∧ fieldN w ∈ [(0x8 : Fin 16), 0x9, 0xA, 0xB, 0xC, 0xD, 0xF]) ∨
    (fieldF w = 9 ∧ fieldN w ≠ 0) ∨
    (fieldF w = 0xE ∧ fieldNN w ∉ [(0x9E : Byte), 0xA1]) ∨
    (fieldF w = 0xF ∧ fieldNN w ∉ [(0x07 : Byte), 0x0A, 0x15, 0x18, 0x1E, 0x29, 0x33, 0x55, 0x65])

/-- A few words of the rules' own examples, at least one of each of the 16 families. -/
def Obligations.ExampleWordsDecode : Prop :=
  decodeWord 0x00E0 = .ok .cls ∧ decodeWord 0x0345 = .ok (.sys 0x345) ∧ decodeWord 0x120A = .ok (.jp 0x20A) ∧
  decodeWord 0x2208 = .ok (.call 0x208) ∧ decodeWord 0x3342 = .ok (.seImm 3 0x42) ∧
  decodeWord 0x4342 = .ok (.sneImm 3 0x42) ∧
  decodeWord 0x5120 = .ok (.seReg 1 2) ∧ decodeWord 0x6A2B = .ok (.ldImm 0xA 0x2B) ∧
  decodeWord 0x7002 = .ok (.addImm 0 0x02) ∧ decodeWord 0x8014 = .ok (.addReg 0 1) ∧
  decodeWord 0x9120 = .ok (.sneReg 1 2) ∧ decodeWord 0xA2F0 = .ok (.ldI 0x2F0) ∧
  decodeWord 0xB300 = .ok (.jpV0 0x300) ∧ decodeWord 0xC30F = .ok (.rnd 3 0x0F) ∧
  decodeWord 0xD011 = .ok (.drw 0 1 1) ∧ decodeWord 0xE29E = .ok (.skp 2) ∧ decodeWord 0xF533 = .ok (.ldB 5)

/-! ### The host (spec/60_exceptions.md table T12, spec/70_reset_and_hazards.md) -/

/-- load: refused for a loaded machine (the spec's own choice D25), an empty image and one over 3584 bytes; otherwise the
image stands at 0x200 and up, the loaded flag is set, and nothing else changes. -/
def Obligations.LoadCopiesTheImage : Prop :=
  ∀ (s : State) (image : List Byte),
    ((s.loaded = true ∨ image.length = 0 ∨ 3584 < image.length) → hostLoad s image = none) ∧
    (s.loaded = false → 0 < image.length → image.length ≤ 3584 → ∃ t, hostLoad s image = some t ∧
      (∀ (k : Nat) (h : k < image.length), t.byte (0x200 + k) = image[k]) ∧
      OtherBytesSame 0x200 image.length s t ∧ t.loaded = true ∧ Frame [.mem, .loaded] s t)

/-- setKey, consumeFrame and reset: what each changes, and that it changes nothing else (the spec's own choices D32, D31,
D25; that reset keeps the configuration and the count of draws is the model's, log 1 and log 2). -/
def Obligations.HostOperationsTouchTheirStateOnly : Prop :=
  ∀ s : State,
    (∀ (k : Reg) (p : Bool), (hostSetKey s k p).key[k.val] = p ∧
      (∀ j : Reg, j ≠ k → (hostSetKey s k p).key[j.val] = s.key[j.val]) ∧ Frame [.key] s (hostSetKey s k p)) ∧
    ((hostConsumeFrame s).1.screen = s.fb ∧ (hostConsumeFrame s).1.wasDirty = s.dirty ∧
      (hostConsumeFrame s).2.dirty = false ∧ Frame [.dirty] s (hostConsumeFrame s).2) ∧
    hostReset s = { State.resetWith s.cfg with draws := s.draws }

/-- The host's placing of a word: the next step fetches exactly it, on a running machine (log 12). -/
def Obligations.PlacedWordIsFetched : Prop :=
  ∀ (s : State) (w : Nat), w < 2 ^ 16 →
    (s.withFetchWord 16 w).Running ∧ (s.withFetchWord 16 w).fetch = some (BitVec.ofNat 16 w) ∧
    Frame [.mem, .pc, .loaded, .halted] s (s.withFetchWord 16 w) ∧
    (s.pc.toNat ≤ 0xFFE → (s.withFetchWord 16 w).pc = s.pc ∧
      OtherBytesSame s.pc.toNat 2 s (s.withFetchWord 16 w))
end

