-- ==== Sys2Proof/Laws/State.lean ====
section
/-! SUPPORT. One lemma per field per named update of the state, so that no proof unfolds a record update; and the reads
`v` and `byte` after each update. -/

namespace Sys2Proof.Machine

variable (s : State)

/-! ### setV -/

@[simp] theorem State.setV_V (x : Reg) (b : Byte) : (s.setV x b).V = s.V.set x.val b := rfl
@[simp] theorem State.setV_I (x : Reg) (b : Byte) : (s.setV x b).I = s.I := rfl
@[simp] theorem State.setV_pc (x : Reg) (b : Byte) : (s.setV x b).pc = s.pc := rfl
@[simp] theorem State.setV_stack (x : Reg) (b : Byte) : (s.setV x b).stack = s.stack := rfl
@[simp] theorem State.setV_sp (x : Reg) (b : Byte) : (s.setV x b).sp = s.sp := rfl
@[simp] theorem State.setV_mem (x : Reg) (b : Byte) : (s.setV x b).mem = s.mem := rfl
@[simp] theorem State.setV_fb (x : Reg) (b : Byte) : (s.setV x b).fb = s.fb := rfl
@[simp] theorem State.setV_dirty (x : Reg) (b : Byte) : (s.setV x b).dirty = s.dirty := rfl
@[simp] theorem State.setV_key (x : Reg) (b : Byte) : (s.setV x b).key = s.key := rfl
@[simp] theorem State.setV_dt (x : Reg) (b : Byte) : (s.setV x b).dt = s.dt := rfl
@[simp] theorem State.setV_st (x : Reg) (b : Byte) : (s.setV x b).st = s.st := rfl
@[simp] theorem State.setV_cc (x : Reg) (b : Byte) : (s.setV x b).cc = s.cc := rfl
@[simp] theorem State.setV_loaded (x : Reg) (b : Byte) : (s.setV x b).loaded = s.loaded := rfl
@[simp] theorem State.setV_halted (x : Reg) (b : Byte) : (s.setV x b).halted = s.halted := rfl
@[simp] theorem State.setV_cfg (x : Reg) (b : Byte) : (s.setV x b).cfg = s.cfg := rfl
@[simp] theorem State.setV_draws (x : Reg) (b : Byte) : (s.setV x b).draws = s.draws := rfl

/-! ### setI -/

@[simp] theorem State.setI_V (w : Word) : (s.setI w).V = s.V := rfl
@[simp] theorem State.setI_I (w : Word) : (s.setI w).I = w := rfl
@[simp] theorem State.setI_pc (w : Word) : (s.setI w).pc = s.pc := rfl
@[simp] theorem State.setI_stack (w : Word) : (s.setI w).stack = s.stack := rfl
@[simp] theorem State.setI_sp (w : Word) : (s.setI w).sp = s.sp := rfl
@[simp] theorem State.setI_mem (w : Word) : (s.setI w).mem = s.mem := rfl
@[simp] theorem State.setI_fb (w : Word) : (s.setI w).fb = s.fb := rfl
@[simp] theorem State.setI_dirty (w : Word) : (s.setI w).dirty = s.dirty := rfl
@[simp] theorem State.setI_key (w : Word) : (s.setI w).key = s.key := rfl
@[simp] theorem State.setI_dt (w : Word) : (s.setI w).dt = s.dt := rfl
@[simp] theorem State.setI_st (w : Word) : (s.setI w).st = s.st := rfl
@[simp] theorem State.setI_cc (w : Word) : (s.setI w).cc = s.cc := rfl
@[simp] theorem State.setI_loaded (w : Word) : (s.setI w).loaded = s.loaded := rfl
@[simp] theorem State.setI_halted (w : Word) : (s.setI w).halted = s.halted := rfl
@[simp] theorem State.setI_cfg (w : Word) : (s.setI w).cfg = s.cfg := rfl
@[simp] theorem State.setI_draws (w : Word) : (s.setI w).draws = s.draws := rfl

/-! ### setPc -/

@[simp] theorem State.setPc_V (w : Word) : (s.setPc w).V = s.V := rfl
@[simp] theorem State.setPc_I (w : Word) : (s.setPc w).I = s.I := rfl
@[simp] theorem State.setPc_pc (w : Word) : (s.setPc w).pc = w := rfl
@[simp] theorem State.setPc_stack (w : Word) : (s.setPc w).stack = s.stack := rfl
@[simp] theorem State.setPc_sp (w : Word) : (s.setPc w).sp = s.sp := rfl
@[simp] theorem State.setPc_mem (w : Word) : (s.setPc w).mem = s.mem := rfl
@[simp] theorem State.setPc_fb (w : Word) : (s.setPc w).fb = s.fb := rfl
@[simp] theorem State.setPc_dirty (w : Word) : (s.setPc w).dirty = s.dirty := rfl
@[simp] theorem State.setPc_key (w : Word) : (s.setPc w).key = s.key := rfl
@[simp] theorem State.setPc_dt (w : Word) : (s.setPc w).dt = s.dt := rfl
@[simp] theorem State.setPc_st (w : Word) : (s.setPc w).st = s.st := rfl
@[simp] theorem State.setPc_cc (w : Word) : (s.setPc w).cc = s.cc := rfl
@[simp] theorem State.setPc_loaded (w : Word) : (s.setPc w).loaded = s.loaded := rfl
@[simp] theorem State.setPc_halted (w : Word) : (s.setPc w).halted = s.halted := rfl
@[simp] theorem State.setPc_cfg (w : Word) : (s.setPc w).cfg = s.cfg := rfl
@[simp] theorem State.setPc_draws (w : Word) : (s.setPc w).draws = s.draws := rfl

/-! ### setByte -/

@[simp] theorem State.setByte_V (a : Nat) (b : Byte) : (s.setByte a b).V = s.V := rfl
@[simp] theorem State.setByte_I (a : Nat) (b : Byte) : (s.setByte a b).I = s.I := rfl
@[simp] theorem State.setByte_pc (a : Nat) (b : Byte) : (s.setByte a b).pc = s.pc := rfl
@[simp] theorem State.setByte_stack (a : Nat) (b : Byte) : (s.setByte a b).stack = s.stack := rfl
@[simp] theorem State.setByte_sp (a : Nat) (b : Byte) : (s.setByte a b).sp = s.sp := rfl
@[simp] theorem State.setByte_mem (a : Nat) (b : Byte) : (s.setByte a b).mem = s.mem.write a b := rfl
@[simp] theorem State.setByte_fb (a : Nat) (b : Byte) : (s.setByte a b).fb = s.fb := rfl
@[simp] theorem State.setByte_dirty (a : Nat) (b : Byte) : (s.setByte a b).dirty = s.dirty := rfl
@[simp] theorem State.setByte_key (a : Nat) (b : Byte) : (s.setByte a b).key = s.key := rfl
@[simp] theorem State.setByte_dt (a : Nat) (b : Byte) : (s.setByte a b).dt = s.dt := rfl
@[simp] theorem State.setByte_st (a : Nat) (b : Byte) : (s.setByte a b).st = s.st := rfl
@[simp] theorem State.setByte_cc (a : Nat) (b : Byte) : (s.setByte a b).cc = s.cc := rfl
@[simp] theorem State.setByte_loaded (a : Nat) (b : Byte) : (s.setByte a b).loaded = s.loaded := rfl
@[simp] theorem State.setByte_halted (a : Nat) (b : Byte) : (s.setByte a b).halted = s.halted := rfl
@[simp] theorem State.setByte_cfg (a : Nat) (b : Byte) : (s.setByte a b).cfg = s.cfg := rfl
@[simp] theorem State.setByte_draws (a : Nat) (b : Byte) : (s.setByte a b).draws = s.draws := rfl

/-! ### setScreen -/

@[simp] theorem State.setScreen_V (f : Screen) : (s.setScreen f).V = s.V := rfl
@[simp] theorem State.setScreen_I (f : Screen) : (s.setScreen f).I = s.I := rfl
@[simp] theorem State.setScreen_pc (f : Screen) : (s.setScreen f).pc = s.pc := rfl
@[simp] theorem State.setScreen_stack (f : Screen) : (s.setScreen f).stack = s.stack := rfl
@[simp] theorem State.setScreen_sp (f : Screen) : (s.setScreen f).sp = s.sp := rfl
@[simp] theorem State.setScreen_mem (f : Screen) : (s.setScreen f).mem = s.mem := rfl
@[simp] theorem State.setScreen_fb (f : Screen) : (s.setScreen f).fb = f := rfl
@[simp] theorem State.setScreen_dirty (f : Screen) : (s.setScreen f).dirty = true := rfl
@[simp] theorem State.setScreen_key (f : Screen) : (s.setScreen f).key = s.key := rfl
@[simp] theorem State.setScreen_dt (f : Screen) : (s.setScreen f).dt = s.dt := rfl
@[simp] theorem State.setScreen_st (f : Screen) : (s.setScreen f).st = s.st := rfl
@[simp] theorem State.setScreen_cc (f : Screen) : (s.setScreen f).cc = s.cc := rfl
@[simp] theorem State.setScreen_loaded (f : Screen) : (s.setScreen f).loaded = s.loaded := rfl
@[simp] theorem State.setScreen_halted (f : Screen) : (s.setScreen f).halted = s.halted := rfl
@[simp] theorem State.setScreen_cfg (f : Screen) : (s.setScreen f).cfg = s.cfg := rfl
@[simp] theorem State.setScreen_draws (f : Screen) : (s.setScreen f).draws = s.draws := rfl

/-! ### setDt -/

@[simp] theorem State.setDt_V (b : Byte) : (s.setDt b).V = s.V := rfl
@[simp] theorem State.setDt_I (b : Byte) : (s.setDt b).I = s.I := rfl
@[simp] theorem State.setDt_pc (b : Byte) : (s.setDt b).pc = s.pc := rfl
@[simp] theorem State.setDt_stack (b : Byte) : (s.setDt b).stack = s.stack := rfl
@[simp] theorem State.setDt_sp (b : Byte) : (s.setDt b).sp = s.sp := rfl
@[simp] theorem State.setDt_mem (b : Byte) : (s.setDt b).mem = s.mem := rfl
@[simp] theorem State.setDt_fb (b : Byte) : (s.setDt b).fb = s.fb := rfl
@[simp] theorem State.setDt_dirty (b : Byte) : (s.setDt b).dirty = s.dirty := rfl
@[simp] theorem State.setDt_key (b : Byte) : (s.setDt b).key = s.key := rfl
@[simp] theorem State.setDt_dt (b : Byte) : (s.setDt b).dt = b := rfl
@[simp] theorem State.setDt_st (b : Byte) : (s.setDt b).st = s.st := rfl
@[simp] theorem State.setDt_cc (b : Byte) : (s.setDt b).cc = s.cc := rfl
@[simp] theorem State.setDt_loaded (b : Byte) : (s.setDt b).loaded = s.loaded := rfl
@[simp] theorem State.setDt_halted (b : Byte) : (s.setDt b).halted = s.halted := rfl
@[simp] theorem State.setDt_cfg (b : Byte) : (s.setDt b).cfg = s.cfg := rfl
@[simp] theorem State.setDt_draws (b : Byte) : (s.setDt b).draws = s.draws := rfl

/-! ### setSt -/

@[simp] theorem State.setSt_V (b : Byte) : (s.setSt b).V = s.V := rfl
@[simp] theorem State.setSt_I (b : Byte) : (s.setSt b).I = s.I := rfl
@[simp] theorem State.setSt_pc (b : Byte) : (s.setSt b).pc = s.pc := rfl
@[simp] theorem State.setSt_stack (b : Byte) : (s.setSt b).stack = s.stack := rfl
@[simp] theorem State.setSt_sp (b : Byte) : (s.setSt b).sp = s.sp := rfl
@[simp] theorem State.setSt_mem (b : Byte) : (s.setSt b).mem = s.mem := rfl
@[simp] theorem State.setSt_fb (b : Byte) : (s.setSt b).fb = s.fb := rfl
@[simp] theorem State.setSt_dirty (b : Byte) : (s.setSt b).dirty = s.dirty := rfl
@[simp] theorem State.setSt_key (b : Byte) : (s.setSt b).key = s.key := rfl
@[simp] theorem State.setSt_dt (b : Byte) : (s.setSt b).dt = s.dt := rfl
@[simp] theorem State.setSt_st (b : Byte) : (s.setSt b).st = b := rfl
@[simp] theorem State.setSt_cc (b : Byte) : (s.setSt b).cc = s.cc := rfl
@[simp] theorem State.setSt_loaded (b : Byte) : (s.setSt b).loaded = s.loaded := rfl
@[simp] theorem State.setSt_halted (b : Byte) : (s.setSt b).halted = s.halted := rfl
@[simp] theorem State.setSt_cfg (b : Byte) : (s.setSt b).cfg = s.cfg := rfl
@[simp] theorem State.setSt_draws (b : Byte) : (s.setSt b).draws = s.draws := rfl

/-! ### setCc -/

@[simp] theorem State.setCc_V (n : Nat) : (s.setCc n).V = s.V := rfl
@[simp] theorem State.setCc_I (n : Nat) : (s.setCc n).I = s.I := rfl
@[simp] theorem State.setCc_pc (n : Nat) : (s.setCc n).pc = s.pc := rfl
@[simp] theorem State.setCc_stack (n : Nat) : (s.setCc n).stack = s.stack := rfl
@[simp] theorem State.setCc_sp (n : Nat) : (s.setCc n).sp = s.sp := rfl
@[simp] theorem State.setCc_mem (n : Nat) : (s.setCc n).mem = s.mem := rfl
@[simp] theorem State.setCc_fb (n : Nat) : (s.setCc n).fb = s.fb := rfl
@[simp] theorem State.setCc_dirty (n : Nat) : (s.setCc n).dirty = s.dirty := rfl
@[simp] theorem State.setCc_key (n : Nat) : (s.setCc n).key = s.key := rfl
@[simp] theorem State.setCc_dt (n : Nat) : (s.setCc n).dt = s.dt := rfl
@[simp] theorem State.setCc_st (n : Nat) : (s.setCc n).st = s.st := rfl
@[simp] theorem State.setCc_cc (n : Nat) : (s.setCc n).cc = n := rfl
@[simp] theorem State.setCc_loaded (n : Nat) : (s.setCc n).loaded = s.loaded := rfl
@[simp] theorem State.setCc_halted (n : Nat) : (s.setCc n).halted = s.halted := rfl
@[simp] theorem State.setCc_cfg (n : Nat) : (s.setCc n).cfg = s.cfg := rfl
@[simp] theorem State.setCc_draws (n : Nat) : (s.setCc n).draws = s.draws := rfl

/-! ### countDraw -/

@[simp] theorem State.countDraw_V : s.countDraw.V = s.V := rfl
@[simp] theorem State.countDraw_I : s.countDraw.I = s.I := rfl
@[simp] theorem State.countDraw_pc : s.countDraw.pc = s.pc := rfl
@[simp] theorem State.countDraw_stack : s.countDraw.stack = s.stack := rfl
@[simp] theorem State.countDraw_sp : s.countDraw.sp = s.sp := rfl
@[simp] theorem State.countDraw_mem : s.countDraw.mem = s.mem := rfl
@[simp] theorem State.countDraw_fb : s.countDraw.fb = s.fb := rfl
@[simp] theorem State.countDraw_dirty : s.countDraw.dirty = s.dirty := rfl
@[simp] theorem State.countDraw_key : s.countDraw.key = s.key := rfl
@[simp] theorem State.countDraw_dt : s.countDraw.dt = s.dt := rfl
@[simp] theorem State.countDraw_st : s.countDraw.st = s.st := rfl
@[simp] theorem State.countDraw_cc : s.countDraw.cc = s.cc := rfl
@[simp] theorem State.countDraw_loaded : s.countDraw.loaded = s.loaded := rfl
@[simp] theorem State.countDraw_halted : s.countDraw.halted = s.halted := rfl
@[simp] theorem State.countDraw_cfg : s.countDraw.cfg = s.cfg := rfl
@[simp] theorem State.countDraw_draws : s.countDraw.draws = s.draws + 1 := rfl

/-! ### stop -/

@[simp] theorem State.stop_V : s.stop.V = s.V := rfl
@[simp] theorem State.stop_I : s.stop.I = s.I := rfl
@[simp] theorem State.stop_pc : s.stop.pc = s.pc := rfl
@[simp] theorem State.stop_stack : s.stop.stack = s.stack := rfl
@[simp] theorem State.stop_sp : s.stop.sp = s.sp := rfl
@[simp] theorem State.stop_mem : s.stop.mem = s.mem := rfl
@[simp] theorem State.stop_fb : s.stop.fb = s.fb := rfl
@[simp] theorem State.stop_dirty : s.stop.dirty = s.dirty := rfl
@[simp] theorem State.stop_key : s.stop.key = s.key := rfl
@[simp] theorem State.stop_dt : s.stop.dt = s.dt := rfl
@[simp] theorem State.stop_st : s.stop.st = s.st := rfl
@[simp] theorem State.stop_cc : s.stop.cc = s.cc := rfl
@[simp] theorem State.stop_loaded : s.stop.loaded = s.loaded := rfl
@[simp] theorem State.stop_halted : s.stop.halted = true := rfl
@[simp] theorem State.stop_cfg : s.stop.cfg = s.cfg := rfl
@[simp] theorem State.stop_draws : s.stop.draws = s.draws := rfl

/-! ### The state after reset, and an outcome in the host's form -/

@[simp] theorem State.resetWith_V (c : Config) : (State.resetWith c).V = Vector.replicate 16 0 := rfl
@[simp] theorem State.resetWith_I (c : Config) : (State.resetWith c).I = 0 := rfl
@[simp] theorem State.resetWith_pc (c : Config) : (State.resetWith c).pc = 0x200 := rfl
@[simp] theorem State.resetWith_stack (c : Config) : (State.resetWith c).stack = Vector.replicate 16 0 := rfl
@[simp] theorem State.resetWith_sp (c : Config) : (State.resetWith c).sp = 0 := rfl
@[simp] theorem State.resetWith_mem (c : Config) : (State.resetWith c).mem = Memory.reset c.font := rfl
@[simp] theorem State.resetWith_fb (c : Config) :
    (State.resetWith c).fb = Vector.replicate 32 (Vector.replicate 64 false) := rfl
@[simp] theorem State.resetWith_dirty (c : Config) : (State.resetWith c).dirty = false := rfl
@[simp] theorem State.resetWith_key (c : Config) : (State.resetWith c).key = Vector.replicate 16 false := rfl
@[simp] theorem State.resetWith_dt (c : Config) : (State.resetWith c).dt = 0 := rfl
@[simp] theorem State.resetWith_st (c : Config) : (State.resetWith c).st = 0 := rfl
@[simp] theorem State.resetWith_cc (c : Config) : (State.resetWith c).cc = 0 := rfl
@[simp] theorem State.resetWith_loaded (c : Config) : (State.resetWith c).loaded = false := rfl
@[simp] theorem State.resetWith_halted (c : Config) : (State.resetWith c).halted = false := rfl
@[simp] theorem State.resetWith_cfg (c : Config) : (State.resetWith c).cfg = c := rfl
@[simp] theorem State.resetWith_draws (c : Config) : (State.resetWith c).draws = 0 := rfl

@[simp] theorem Outcome.result_success (t : State) : (Outcome.success t).result s = .next t := rfl
@[simp] theorem Outcome.result_blocking : Outcome.blocking.result s = .next s := rfl
@[simp] theorem Outcome.result_invalid (c : Fault) : (Outcome.invalid c).result s = .fault c := rfl

end Sys2Proof.Machine
end

