-- ==== Sys2Proof/Laws/Memory.lean ====
section
/-! SUPPORT. Memory: a read after a write, what a write leaves alone, that every memory operation keeps the canonical form,
and that the memories are exactly the functions from the 4096 cells to bytes. -/

namespace Sys2Proof.Machine

/-! ### Lists of cells -/

theorem readCells_writeCells_other (m : List Host.Cell) (a a' : Nat) (b : Byte) (h : a' ≠ a) :
    readCells (writeCells m a b) a' = readCells m a' := by
  induction m with
  | nil => by_cases hb : b = 0#8 <;> simp [writeCells, readCells, hb, h]
  | cons c m ih =>
    obtain ⟨k, v⟩ := c
    by_cases hk : k < a
    · simp [writeCells, readCells, hk, ih]
    · by_cases hak : a = k
      · subst hak
        by_cases hb : b = 0#8 <;> simp [writeCells, readCells, hb, h]
      · by_cases hb : b = 0#8 <;> simp [writeCells, readCells, hk, hak, hb, h]

/-- An address below every listed one reads as 0x00. -/
theorem readCells_below (lo : Nat) (m : List Host.Cell) (a : Nat) (hm : canonicalFrom lo m = true) (h : a < lo) :
    readCells m a = 0 := by
  induction m generalizing lo with
  | nil => rfl
  | cons c m ih =>
    simp only [canonicalFrom, Bool.and_eq_true, decide_eq_true_eq] at hm
    have ha : a ≠ c.1 := by have := hm.1.1.1; omega
    simpa [readCells, ha] using ih (c.1 + 1) hm.2 (by have := hm.1.1.1; omega)

theorem readCells_writeCells_same (lo : Nat) (m : List Host.Cell) (a : Nat) (b : Byte)
    (hm : canonicalFrom lo m = true) : readCells (writeCells m a b) a = b := by
  induction m generalizing lo with
  | nil => by_cases hb : b = 0#8 <;> simp [writeCells, readCells, hb]
  | cons c m ih =>
    obtain ⟨k, v⟩ := c
    simp only [canonicalFrom, Bool.and_eq_true, decide_eq_true_eq] at hm
    by_cases hk : k < a
    · have ha : a ≠ k := by omega
      simpa [writeCells, readCells, hk, ha] using ih (k + 1) hm.2
    · by_cases hb : b = 0#8
      · have below : readCells m a = 0 := readCells_below (k + 1) m a hm.2 (by omega)
        by_cases hak : a = k
        · simpa [writeCells, hk, hak, hb] using hak ▸ below
        · simpa [writeCells, readCells, hk, hak, hb] using below
      · simp [writeCells, readCells, hk, hb]

/-- Two canonical lists that read the same everywhere below 4096 are the same list. -/
theorem cells_eq_of_read (lo : Nat) (m m' : List Host.Cell) (hm : canonicalFrom lo m = true)
    (hm' : canonicalFrom lo m' = true) (h : ∀ a, a < memSize → readCells m a = readCells m' a) : m = m' := by
  induction m generalizing lo m' with
  | nil =>
    cases m' with
    | nil => rfl
    | cons c m' =>
      simp only [canonicalFrom, Bool.and_eq_true, decide_eq_true_eq, bne_iff_ne] at hm'
      have := h c.1 hm'.1.1.2
      simp only [readCells, if_true] at this
      exact absurd this.symm hm'.1.2
  | cons c m ih =>
    obtain ⟨k, v⟩ := c
    have hc := hm
    simp only [canonicalFrom, Bool.and_eq_true, decide_eq_true_eq, bne_iff_ne] at hc
    cases m' with
    | nil =>
      have := h k hc.1.1.2
      simp only [readCells, if_true] at this
      exact absurd this hc.1.2
    | cons c' m' =>
      obtain ⟨k', v'⟩ := c'
      have hc' := hm'
      simp only [canonicalFrom, Bool.and_eq_true, decide_eq_true_eq, bne_iff_ne] at hc'
      have hk : k = k' := by
        rcases Nat.lt_trichotomy k k' with hlt | he | hgt
        · have := h k hc.1.1.2
          have below := readCells_below (k' + 1) m' k hc'.2 (by omega)
          simp only [readCells, if_true, Nat.ne_of_lt hlt, if_false, below] at this
          exact absurd this hc.1.2
        · exact he
        · have := h k' hc'.1.1.2
          have below := readCells_below (k + 1) m k' hc.2 (by omega)
          simp only [readCells, if_true, Nat.ne_of_lt hgt, if_false, below] at this
          exact absurd this.symm hc'.1.2
      subst hk
      have hv : v = v' := by simpa [readCells] using h k hc.1.1.2
      rw [hv, ih (k + 1) m' hc.2 hc'.2 fun a ha => ?_]
      by_cases hak : a = k
      · rw [readCells_below (k + 1) m a hc.2 (by omega), readCells_below (k + 1) m' a hc'.2 (by omega)]
      · simpa [readCells, hak] using h a ha

/-! ### Memory -/

@[simp] theorem Memory.read_zero (a : Nat) : Memory.zero.read a = 0 := rfl

theorem Memory.read_write_other (m : Memory) (a a' : Nat) (b : Byte) (h : a' ≠ a) :
    (m.write a b).read a' = m.read a' := by
  unfold Memory.write
  split
  · exact readCells_writeCells_other m.cells a a' b h
  · rfl

theorem Memory.read_write_same (m : Memory) (a : Nat) (b : Byte) (ha : a < memSize) : (m.write a b).read a = b := by
  simp only [Memory.write, ha, dif_pos]
  exact readCells_writeCells_same 0 m.cells a b m.canonical

/-- Everything a block write does: the written bytes, and every other byte as before. -/
theorem Memory.read_writeAll (m : Memory) (base : Nat) (bs : List Byte) (a : Nat) (hr : base + bs.length ≤ memSize) :
    (m.writeAll base bs).read a = if h : base ≤ a ∧ a < base + bs.length then bs[a - base]'(by omega) else m.read a := by
  induction bs generalizing m base with
  | nil =>
    have : ¬ (base ≤ a ∧ a < base) := by omega
    simp [Memory.writeAll, this]
  | cons b bs ih =>
    simp only [List.length_cons] at hr
    rw [Memory.writeAll, ih _ _ (by omega)]
    by_cases ha : a = base
    · subst ha
      simp [m.read_write_same a b (by omega)]
    · rw [m.read_write_other _ _ _ ha]
      by_cases h : base + 1 ≤ a ∧ a < base + 1 + bs.length
      · have h2 : base ≤ a ∧ a < base + (b :: bs).length := by simp; omega
        have h3 : a - base = (a - (base + 1)) + 1 := by omega
        rw [dif_pos h, dif_pos h2]
        simp [h3]
      · have h2 : ¬ (base ≤ a ∧ a < base + (b :: bs).length) := by simp; omega
        rw [dif_neg h, dif_neg h2]

/-- A block write leaves the bytes outside it alone, also where it would leave the address space. -/
theorem Memory.read_writeAll_other (m : Memory) (base : Nat) (bs : List Byte) (a : Nat)
    (h : a < base ∨ base + bs.length ≤ a) : (m.writeAll base bs).read a = m.read a := by
  induction bs generalizing m base with
  | nil => rfl
  | cons b bs ih =>
    simp only [List.length_cons] at h
    rw [Memory.writeAll, ih _ _ (by omega), m.read_write_other _ _ _ (by omega)]

/-- The memory of R20: reading is a one-to-one correspondence between the memories and the functions from the 4096 cells
to bytes. -/
theorem Memory.read_bijective : Function.Bijective fun (m : Memory) (a : Fin 4096) => m.read a.val := by
  constructor
  · intro m m' h
    have hc : m.cells = m'.cells := cells_eq_of_read 0 _ _ m.canonical m'.canonical fun a ha => congrFun h ⟨a, ha⟩
    cases m; cases m'; cases hc; rfl
  · intro f
    have build : ∀ l : List (Fin 4096), ∃ m : Memory, ∀ a ∈ l, m.read a.val = f a := by
      intro l
      induction l with
      | nil => exact ⟨Memory.zero, by simp⟩
      | cons k l ih =>
        obtain ⟨m, hr⟩ := ih
        refine ⟨m.write k.val (f k), fun a ha => ?_⟩
        by_cases e : a = k
        · subst e; exact m.read_write_same _ _ a.isLt
        · rw [m.read_write_other _ _ _ fun h => e (Fin.ext h)]
          exact hr a ((List.mem_cons.mp ha).resolve_left e)
    obtain ⟨m, hr⟩ := build (List.finRange 4096)
    exact ⟨m, funext fun a => hr a (List.mem_finRange a)⟩

/-! ### The reset contents -/

@[simp] theorem length_fontBytes (font : Font) : (fontBytes font).length = 80 := by
  have h : ∀ l : List (Vector Byte 5), (l.flatMap Vector.toList).length = 5 * l.length := by
    intro l
    induction l with
    | nil => rfl
    | cons g l ih => simp only [List.flatMap_cons, List.length_append, Vector.length_toList, ih, List.length_cons]; omega
  simp [fontBytes, h]

/-- The byte of a font at `5 d + r` is row `r` of glyph `d`. -/
theorem getElem?_fontBytes (font : Font) (d : Fin 16) (r : Fin 5) :
    (fontBytes font)[5 * d.val + r.val]? = some (font[d.val])[r.val] := by
  have h : ∀ (l : List (Vector Byte 5)) (k : Nat) (hk : k < l.length),
      (l.flatMap Vector.toList)[5 * k + r.val]? = some (l[k])[r.val] := by
    intro l
    induction l with
    | nil => intro k hk; simp at hk
    | cons g l ih =>
      intro k hk
      cases k with
      | zero => simp [List.getElem?_append]
      | succ k =>
        have h5 : ¬ 5 * (k + 1) + r.val < 5 := by omega
        have he : 5 * (k + 1) + r.val - 5 = 5 * k + r.val := by omega
        simp only [List.flatMap_cons, List.getElem?_append, Vector.length_toList, h5, if_false, he, List.getElem_cons_succ]
        exact ih k (by simpa using hk)
  simpa [fontBytes] using h font.toList d.val (by simp)

/-- Memory after reset: the font, glyph by glyph, and 0x00 everywhere else. -/
theorem Memory.read_reset (font : Font) (a : Nat) :
    (Memory.reset font).read a = if h : a < 80 then (fontBytes font)[a]'(by simpa using h) else 0 := by
  rw [Memory.reset, Memory.read_writeAll _ _ _ _ (by simp [memSize])]
  by_cases h : a < 80 <;> simp [h]

/-! ### Through the state -/

theorem State.byte_setByte_other (s : State) (a a' : Nat) (b : Byte) (h : a' ≠ a) :
    (s.setByte a b).byte a' = s.byte a' := s.mem.read_write_other _ _ _ h

theorem State.byte_setByte_same (s : State) (a : Nat) (b : Byte) (ha : a < memSize) :
    (s.setByte a b).byte a = b := s.mem.read_write_same _ _ ha

/-- Every write keeps the canonical form. -/
theorem State.setByte_wf (s : State) (a : Nat) (b : Byte) : Memory.wf (s.setByte a b).mem.cells = true :=
  (s.setByte a b).mem.canonical

/-- Every block write keeps the canonical form. -/
theorem State.setBytes_wf (s : State) (base : Nat) (bs : List Byte) : Memory.wf (s.setBytes base bs).mem.cells = true :=
  (s.setBytes base bs).mem.canonical

/-- The reset memory is in canonical form. -/
theorem State.reset_mem_wf : Memory.wf State.reset.mem.cells = true := State.reset.mem.canonical

/-- Everything a block write does to memory: the written bytes, and every other byte as before. -/
theorem State.byte_setBytes (s : State) (base : Nat) (bs : List Byte) (a : Nat) (hr : base + bs.length ≤ memSize) :
    (s.setBytes base bs).byte a = if h : base ≤ a ∧ a < base + bs.length then bs[a - base]'(by omega) else s.byte a :=
  s.mem.read_writeAll base bs a hr

/-- A block write leaves the bytes outside it alone. -/
theorem State.byte_setBytes_other (s : State) (base : Nat) (bs : List Byte) (a : Nat)
    (h : a < base ∨ base + bs.length ≤ a) : (s.setBytes base bs).byte a = s.byte a :=
  s.mem.read_writeAll_other base bs a h

theorem State.length_bytes (s : State) (base n : Nat) : (s.bytes base n).length = n := by simp [State.bytes]

theorem State.getElem_bytes (s : State) (base n k : Nat) (h : k < (s.bytes base n).length) :
    (s.bytes base n)[k] = s.byte (base + k) := by simp [State.bytes]

end Sys2Proof.Machine
end

