-- ==== Sys2Proof/Laws/Ops.lean ====
section
/-! SUPPORT. What the shared operations over registers, the stack, the framebuffer and the fetch do, each said once. -/

namespace Sys2Proof.Machine

variable (s : State)

/-! ### Registers -/

theorem State.v_setV (x k : Reg) (b : Byte) : (s.setV x b).v k = if k = x then b else s.v k := by
  by_cases h : k = x
  · subst h; simp [State.v]
  · have : x.val ≠ k.val := fun h' => h (Fin.ext h'.symm)
    simp [State.v, h, Vector.getElem_set_ne, this]

@[simp] theorem State.v_setV_same (x : Reg) (b : Byte) : (s.setV x b).v x = b := by simp [State.v_setV]

theorem State.v_setV_other (x k : Reg) (b : Byte) (h : k ≠ x) : (s.setV x b).v k = s.v k := by simp [State.v_setV, h]

@[simp] theorem State.v_setI (w : Word) (k : Reg) : (s.setI w).v k = s.v k := rfl
@[simp] theorem State.v_setPc (w : Word) (k : Reg) : (s.setPc w).v k = s.v k := rfl
@[simp] theorem State.v_setByte (a : Nat) (b : Byte) (k : Reg) : (s.setByte a b).v k = s.v k := rfl
@[simp] theorem State.v_setScreen (f : Screen) (k : Reg) : (s.setScreen f).v k = s.v k := rfl
@[simp] theorem State.v_setDt (b : Byte) (k : Reg) : (s.setDt b).v k = s.v k := rfl
@[simp] theorem State.v_setSt (b : Byte) (k : Reg) : (s.setSt b).v k = s.v k := rfl
@[simp] theorem State.v_setCc (n : Nat) (k : Reg) : (s.setCc n).v k = s.v k := rfl
@[simp] theorem State.v_countDraw (k : Reg) : s.countDraw.v k = s.v k := rfl
@[simp] theorem State.v_stop (k : Reg) : s.stop.v k = s.v k := rfl

@[simp] theorem State.byte_setV (x : Reg) (b : Byte) (a : Nat) : (s.setV x b).byte a = s.byte a := rfl
@[simp] theorem State.byte_setI (w : Word) (a : Nat) : (s.setI w).byte a = s.byte a := rfl
@[simp] theorem State.byte_setPc (w : Word) (a : Nat) : (s.setPc w).byte a = s.byte a := rfl
@[simp] theorem State.byte_setScreen (f : Screen) (a : Nat) : (s.setScreen f).byte a = s.byte a := rfl
@[simp] theorem State.byte_setDt (b : Byte) (a : Nat) : (s.setDt b).byte a = s.byte a := rfl
@[simp] theorem State.byte_setSt (b : Byte) (a : Nat) : (s.setSt b).byte a = s.byte a := rfl
@[simp] theorem State.byte_setCc (n : Nat) (a : Nat) : (s.setCc n).byte a = s.byte a := rfl
@[simp] theorem State.byte_countDraw (a : Nat) : s.countDraw.byte a = s.byte a := rfl
@[simp] theorem State.byte_stop (a : Nat) : s.stop.byte a = s.byte a := rfl

/-! ### Block operations: every field they leave alone -/

@[simp] theorem State.setBytes_V (base : Nat) (bs : List Byte) : (s.setBytes base bs).V = s.V := rfl
@[simp] theorem State.setBytes_I (base : Nat) (bs : List Byte) : (s.setBytes base bs).I = s.I := rfl
@[simp] theorem State.setBytes_pc (base : Nat) (bs : List Byte) : (s.setBytes base bs).pc = s.pc := rfl
@[simp] theorem State.setBytes_stack (base : Nat) (bs : List Byte) : (s.setBytes base bs).stack = s.stack := rfl
@[simp] theorem State.setBytes_sp (base : Nat) (bs : List Byte) : (s.setBytes base bs).sp = s.sp := rfl
@[simp] theorem State.setBytes_mem (base : Nat) (bs : List Byte) : (s.setBytes base bs).mem = s.mem.writeAll base bs := rfl
@[simp] theorem State.setBytes_fb (base : Nat) (bs : List Byte) : (s.setBytes base bs).fb = s.fb := rfl
@[simp] theorem State.setBytes_dirty (base : Nat) (bs : List Byte) : (s.setBytes base bs).dirty = s.dirty := rfl
@[simp] theorem State.setBytes_key (base : Nat) (bs : List Byte) : (s.setBytes base bs).key = s.key := rfl
@[simp] theorem State.setBytes_dt (base : Nat) (bs : List Byte) : (s.setBytes base bs).dt = s.dt := rfl
@[simp] theorem State.setBytes_st (base : Nat) (bs : List Byte) : (s.setBytes base bs).st = s.st := rfl
@[simp] theorem State.setBytes_cc (base : Nat) (bs : List Byte) : (s.setBytes base bs).cc = s.cc := rfl
@[simp] theorem State.setBytes_loaded (base : Nat) (bs : List Byte) : (s.setBytes base bs).loaded = s.loaded := rfl
@[simp] theorem State.setBytes_halted (base : Nat) (bs : List Byte) : (s.setBytes base bs).halted = s.halted := rfl
@[simp] theorem State.setBytes_cfg (base : Nat) (bs : List Byte) : (s.setBytes base bs).cfg = s.cfg := rfl
@[simp] theorem State.setBytes_draws (base : Nat) (bs : List Byte) : (s.setBytes base bs).draws = s.draws := rfl

@[simp] theorem State.setRegs_I (first : Nat) (bs : List Byte) : (s.setRegs first bs).I = s.I := by
  induction bs generalizing s first with
  | nil => rfl
  | cons b bs ih => rw [State.setRegs, ih]; split <;> simp

@[simp] theorem State.setRegs_pc (first : Nat) (bs : List Byte) : (s.setRegs first bs).pc = s.pc := by
  induction bs generalizing s first with
  | nil => rfl
  | cons b bs ih => rw [State.setRegs, ih]; split <;> simp

@[simp] theorem State.setRegs_stack (first : Nat) (bs : List Byte) : (s.setRegs first bs).stack = s.stack := by
  induction bs generalizing s first with
  | nil => rfl
  | cons b bs ih => rw [State.setRegs, ih]; split <;> simp

@[simp] theorem State.setRegs_sp (first : Nat) (bs : List Byte) : (s.setRegs first bs).sp = s.sp := by
  induction bs generalizing s first with
  | nil => rfl
  | cons b bs ih => rw [State.setRegs, ih]; split <;> simp

@[simp] theorem State.setRegs_mem (first : Nat) (bs : List Byte) : (s.setRegs first bs).mem = s.mem := by
  induction bs generalizing s first with
  | nil => rfl
  | cons b bs ih => rw [State.setRegs, ih]; split <;> simp

@[simp] theorem State.setRegs_fb (first : Nat) (bs : List Byte) : (s.setRegs first bs).fb = s.fb := by
  induction bs generalizing s first with
  | nil => rfl
  | cons b bs ih => rw [State.setRegs, ih]; split <;> simp

@[simp] theorem State.setRegs_dirty (first : Nat) (bs : List Byte) : (s.setRegs first bs).dirty = s.dirty := by
  induction bs generalizing s first with
  | nil => rfl
  | cons b bs ih => rw [State.setRegs, ih]; split <;> simp

@[simp] theorem State.setRegs_key (first : Nat) (bs : List Byte) : (s.setRegs first bs).key = s.key := by
  induction bs generalizing s first with
  | nil => rfl
  | cons b bs ih => rw [State.setRegs, ih]; split <;> simp

@[simp] theorem State.setRegs_dt (first : Nat) (bs : List Byte) : (s.setRegs first bs).dt = s.dt := by
  induction bs generalizing s first with
  | nil => rfl
  | cons b bs ih => rw [State.setRegs, ih]; split <;> simp

@[simp] theorem State.setRegs_st (first : Nat) (bs : List Byte) : (s.setRegs first bs).st = s.st := by
  induction bs generalizing s first with
  | nil => rfl
  | cons b bs ih => rw [State.setRegs, ih]; split <;> simp

@[simp] theorem State.setRegs_cc (first : Nat) (bs : List Byte) : (s.setRegs first bs).cc = s.cc := by
  induction bs generalizing s first with
  | nil => rfl
  | cons b bs ih => rw [State.setRegs, ih]; split <;> simp

@[simp] theorem State.setRegs_loaded (first : Nat) (bs : List Byte) : (s.setRegs first bs).loaded = s.loaded := by
  induction bs generalizing s first with
  | nil => rfl
  | cons b bs ih => rw [State.setRegs, ih]; split <;> simp

@[simp] theorem State.setRegs_halted (first : Nat) (bs : List Byte) : (s.setRegs first bs).halted = s.halted := by
  induction bs generalizing s first with
  | nil => rfl
  | cons b bs ih => rw [State.setRegs, ih]; split <;> simp

@[simp] theorem State.setRegs_cfg (first : Nat) (bs : List Byte) : (s.setRegs first bs).cfg = s.cfg := by
  induction bs generalizing s first with
  | nil => rfl
  | cons b bs ih => rw [State.setRegs, ih]; split <;> simp

@[simp] theorem State.setRegs_draws (first : Nat) (bs : List Byte) : (s.setRegs first bs).draws = s.draws := by
  induction bs generalizing s first with
  | nil => rfl
  | cons b bs ih => rw [State.setRegs, ih]; split <;> simp

@[simp] theorem State.v_setBytes (base : Nat) (bs : List Byte) (k : Reg) : (s.setBytes base bs).v k = s.v k := rfl

@[simp] theorem State.byte_setRegs (first : Nat) (bs : List Byte) (a : Nat) : (s.setRegs first bs).byte a = s.byte a := by
  simp [State.byte]

/-- Everything a block load does to the registers: those the list reaches, and every other as before. -/
theorem State.v_setRegs (first : Nat) (bs : List Byte) (k : Reg) :
    (s.setRegs first bs).v k
      = if h : first ≤ k.val ∧ k.val < first + bs.length then bs[k.val - first]'(by omega) else s.v k := by
  induction bs generalizing s first with
  | nil =>
    have : ¬ (first ≤ k.val ∧ k.val < first) := by omega
    simp [State.setRegs, this]
  | cons b bs ih =>
    rw [State.setRegs, ih]
    by_cases hk : k.val = first
    · have h1 : ¬ (first + 1 ≤ k.val ∧ k.val < first + 1 + bs.length) := by omega
      have h2 : first ≤ k.val ∧ k.val < first + (b :: bs).length := by simp; omega
      have h3 : first < 16 := by omega
      rw [dif_neg h1, dif_pos h2, dif_pos h3, show (⟨first, h3⟩ : Reg) = k from Fin.ext hk.symm]
      simp [hk]
    · have hv : (if h : first < 16 then s.setV ⟨first, h⟩ b else s).v k = s.v k := by
        split
        · exact s.v_setV_other _ _ _ fun h => hk (congrArg Fin.val h)
        · rfl
      rw [hv]
      by_cases h : first + 1 ≤ k.val ∧ k.val < first + 1 + bs.length
      · have h2 : first ≤ k.val ∧ k.val < first + (b :: bs).length := by simp; omega
        have h3 : k.val - first = (k.val - (first + 1)) + 1 := by omega
        rw [dif_pos h, dif_pos h2]
        simp [h3]
      · have h2 : ¬ (first ≤ k.val ∧ k.val < first + (b :: bs).length) := by simp; omega
        rw [dif_neg h, dif_neg h2]

theorem length_regsUpTo (x : Reg) : (regsUpTo s x).length = x.val + 1 := by
  simp [regsUpTo]

theorem getElem_regsUpTo (x k : Reg) (h : k.val < (regsUpTo s x).length) : (regsUpTo s x)[k.val] = s.v k := by
  simp [regsUpTo, State.v]

/-! ### Moves of `pc`, flag writes and zero extension, in terms of the plain updates -/

@[simp] theorem State.advancePc_eq : s.advancePc = s.setPc (s.pc + 2) := rfl

@[simp] theorem State.skipIf_eq (c : Bool) : s.skipIf c = s.setPc (if c then s.pc + 4 else s.pc + 2) := rfl

@[simp] theorem State.setVThenFlag_eq (x : Reg) (r f : Byte) : s.setVThenFlag x r f = (s.setV x r).setV Reg.vf f := rfl

@[simp] theorem toNat_addrWord (n : Addr) : (addrWord n).toNat = n.toNat := by simp [addrWord]; omega

@[simp] theorem toNat_byteWord (b : Byte) : (byteWord b).toNat = b.toNat := by simp [byteWord]; omega

@[simp] theorem toNat_flagByte (c : Bool) : (flagByte c).toNat = if c then 1 else 0 := by cases c <;> rfl

/-! ### The stack -/

/-- Everything a push can do. -/
theorem State.push_cases (w : Word) :
    (s.push w = none ∧ s.sp.val = 16) ∨
    ∃ h : s.sp.val < 16, s.push w = some { s with stack := s.stack.set s.sp.val w, sp := ⟨s.sp.val + 1, by omega⟩ } := by
  by_cases h : s.sp.val < 16
  · exact .inr ⟨h, by simp [State.push, h]⟩
  · exact .inl ⟨by simp [State.push, h], by omega⟩

/-- Everything a pop can do. -/
theorem State.pop_cases :
    (s.pop = none ∧ s.sp.val = 0) ∨
    ∃ h : 0 < s.sp.val, s.pop = some (s.stack[s.sp.val - 1]'(by omega), { s with sp := ⟨s.sp.val - 1, by omega⟩ }) := by
  by_cases h : 0 < s.sp.val
  · exact .inr ⟨h, by simp [State.pop, h]⟩
  · exact .inl ⟨by simp [State.pop, h], by omega⟩

/-! ### The framebuffer -/

theorem Screen.pixel_outside (f : Screen) (x y : Nat) (h : ¬ (x < 64 ∧ y < 32)) : f.pixel x y = false := by
  simp [Screen.pixel, h]

@[simp] theorem Screen.pixel_blank (x y : Nat) : Screen.blank.pixel x y = false := by
  unfold Screen.pixel Screen.blank
  split <;> simp

/-- Everything a toggle does to a pixel on screen. -/
theorem Screen.pixel_toggle (f : Screen) (x y x' y' : Nat) (h : x' < 64 ∧ y' < 32) :
    (f.toggle x y).pixel x' y' = (f.pixel x' y' ^^ decide (x = x' ∧ y = y')) := by
  unfold Screen.toggle
  by_cases hxy : x < 64 ∧ y < 32
  · simp only [hxy, and_self, dite_true, Screen.pixel, h]
    by_cases hy : y = y'
    · subst hy
      by_cases hx : x = x'
      · subst hx; simp
      · simp [hx]
    · simp [hy]
  · have : ¬ (x = x' ∧ y = y') := by omega
    simp [hxy, this]

/-- Two framebuffers with the same pixels are equal. -/
theorem Screen.ext_pixel (f g : Screen) (h : ∀ x y : Nat, x < 64 → y < 32 → f.pixel x y = g.pixel x y) : f = g := by
  apply Vector.ext
  intro y hy
  apply Vector.ext
  intro x hx
  have := h x y hx hy
  simpa [Screen.pixel, hx, hy] using this

/-! ### Fetching -/

theorem State.fetch_some (w : Word) (h : s.fetch = some w) :
    s.pc.toNat ≤ 0xFFE ∧ w = wordOfBytes (s.byte s.pc.toNat) (s.byte (s.pc.toNat + 1)) := by
  unfold State.fetch at h
  split at h
  · exact ⟨‹_›, by simpa using h.symm⟩
  · exact nomatch h

theorem State.fetch_none : s.fetch = none ↔ 0xFFE < s.pc.toNat := by
  unfold State.fetch
  split <;> simp <;> omega

/-! ### Checks and operands -/

theorem accessOk_iff (base n : Nat) : accessOk base n = true ↔ n = 0 ∨ base + n ≤ memSize := by
  simp only [accessOk, memSize, Bool.or_eq_true, beq_iff_eq, decide_eq_true_eq]; omega

theorem keyIndex_some (b : Byte) (k : Reg) : keyIndex b = some k ↔ b.toNat = k.val := by
  unfold keyIndex
  split
  · simp [Fin.ext_iff]
  · simp; omega

theorem keyIndex_none (b : Byte) : keyIndex b = none ↔ 15 < b.toNat := by
  unfold keyIndex; split <;> simp <;> omega

theorem boxOffscreen_iff (x0 y0 n : Nat) :
    boxOffscreen x0 y0 n = true ↔ 0 < n ∧ (63 < x0 + 7 ∨ 31 < y0 + n - 1) := by simp [boxOffscreen]

theorem collisionFlag_spec (c : Bool) :
    (collisionFlag c = 1 ∨ collisionFlag c = 0) ∧ (collisionFlag c = 1 ↔ c = true) := by cases c <;> decide

/-- A timer that counts down stops at 0. -/
theorem toNat_timerDown (b : Byte) : (if 0 < b.toNat then b - 1 else 0).toNat = b.toNat - 1 := by
  split
  · rw [BitVec.toNat_sub]; simp; omega
  · simp; omega

end Sys2Proof.Machine
end

