-- ==== Sys2Proof/Laws/Draw.lean ====
section
/-! SUPPORT. What drawing a sprite does to the framebuffer and to the collision bit, for one row and for all rows. -/

namespace Sys2Proof.Machine

/-- The columns `k < n` of one row: the pixels toggled, and the collision bit. -/
theorem Canvas.foldl_plot (c : Canvas) (row : Byte) (x0 y n : Nat) :
    (∀ x' y', x' < 64 ∧ y' < 32 →
      ((List.range n).foldl (fun c k => if spriteBit row k then c.plot (x0 + k) y else c) c).1.pixel x' y'
        = (c.1.pixel x' y' ^^ decide (y = y' ∧ x0 ≤ x' ∧ x' < x0 + n ∧ spriteBit row (x' - x0)))) ∧
    ((List.range n).foldl (fun c k => if spriteBit row k then c.plot (x0 + k) y else c) c).2
      = (c.2 || decide (∃ k, k < n ∧ spriteBit row k = true ∧ c.1.pixel (x0 + k) y = true)) := by
  induction n with
  | zero =>
    refine ⟨fun x' y' _ => ?_, by simp⟩
    have : ¬ (y = y' ∧ x0 ≤ x' ∧ x' < x0 + 0 ∧ spriteBit row (x' - x0) = true) := by omega
    rw [decide_eq_false this]; simp
  | succ n ih =>
    obtain ⟨ihp, ihc⟩ := ih
    rw [List.range_succ, List.foldl_append]
    generalize (List.range n).foldl (fun c k => if spriteBit row k then c.plot (x0 + k) y else c) c = d at ihp ihc
    simp only [List.foldl_cons, List.foldl_nil]
    by_cases hb : spriteBit row n = true
    · simp only [hb, if_true, Canvas.plot]
      refine ⟨fun x' y' h => ?_, ?_⟩
      · rw [Screen.pixel_toggle _ _ _ _ _ h, ihp x' y' h]
        by_cases hx : x' = x0 + n
        · subst hx; by_cases hy : y = y' <;> simp [hy, hb]
        · have h1 : ¬ (x0 + n = x' ∧ y = y') := by omega
          have h2 : (x' < x0 + n) ↔ (x' < x0 + (n + 1)) := by omega
          simp [h1, h2]
      · have hp : d.1.pixel (x0 + n) y = c.1.pixel (x0 + n) y := by
          by_cases h : x0 + n < 64 ∧ y < 32
          · simp [ihp _ _ h]
          · rw [Screen.pixel_outside _ _ _ h, Screen.pixel_outside _ _ _ h]
        rw [ihc, hp, Bool.eq_iff_iff]
        simp only [Bool.or_eq_true, decide_eq_true_eq, Nat.lt_succ_iff]
        constructor
        · rintro ((h | ⟨k, hk, h1, h2⟩) | h)
          · exact .inl h
          · exact .inr ⟨k, by omega, h1, h2⟩
          · exact .inr ⟨n, by omega, hb, h⟩
        · rintro (h | ⟨k, hk, h1, h2⟩)
          · exact .inl (.inl h)
          · rcases Nat.lt_or_eq_of_le hk with h | rfl
            · exact .inl (.inr ⟨k, h, h1, h2⟩)
            · exact .inr h2
    · simp only [hb, Bool.false_eq_true, if_false]
      refine ⟨fun x' y' h => ?_, ?_⟩
      · rw [ihp x' y' h]
        by_cases hx : x' = x0 + n
        · subst hx; simp [hb]
        · have h2 : (x' < x0 + n) ↔ (x' < x0 + (n + 1)) := by omega
          simp [h2]
      · rw [ihc, Bool.eq_iff_iff]
        simp only [Bool.or_eq_true, decide_eq_true_eq, Nat.lt_succ_iff]
        constructor
        · rintro (h | ⟨k, hk, h1, h2⟩)
          · exact .inl h
          · exact .inr ⟨k, by omega, h1, h2⟩
        · rintro (h | ⟨k, hk, h1, h2⟩)
          · exact .inl h
          · rcases Nat.lt_or_eq_of_le hk with h | rfl
            · exact .inr ⟨k, h, h1, h2⟩
            · exact absurd h1 hb

theorem spriteBit_eq (row : Byte) (k : Nat) (h : k < 8) : spriteBit row k = row.getLsbD (7 - k) := by
  simp [spriteBit, h]

/-- The first row of a sprite, and the rest one line down. -/
theorem spriteAt_cons (row : Byte) (rows : List Byte) (x0 y0 x y : Nat) :
    spriteAt (row :: rows) x0 y0 x y
      = (decide (y0 = y ∧ x0 ≤ x ∧ x < x0 + 8 ∧ spriteBit row (x - x0)) || spriteAt rows x0 (y0 + 1) x y) := by
  by_cases hx : x0 ≤ x ∧ x < x0 + 8
  · have hk : x - x0 < 8 := by omega
    by_cases hy : y0 = y
    · subst hy; simp [spriteAt, hx, spriteBit_eq row _ hk]
    · by_cases hy2 : y0 + 1 ≤ y
      · have : y - y0 = (y - (y0 + 1)) + 1 := by omega
        have h3 : (y < y0 + (rows.length + 1)) ↔ (y < y0 + 1 + rows.length) := by omega
        have h4 : y0 ≤ y := by omega
        simp [spriteAt, hx, hy, hy2, this, h3, h4]
      · have h4 : ¬ y0 ≤ y := by omega
        simp [spriteAt, hy, hy2, h4]
  · have h1 : ¬ (x0 ≤ x ∧ x < x0 + 8 ∧ y0 ≤ y ∧ y < y0 + (row :: rows).length) := fun h => hx ⟨h.1, h.2.1⟩
    have h2 : ¬ (x0 ≤ x ∧ x < x0 + 8 ∧ y0 + 1 ≤ y ∧ y < y0 + 1 + rows.length) := fun h => hx ⟨h.1, h.2.1⟩
    have h3 : ¬ (y0 = y ∧ x0 ≤ x ∧ x < x0 + 8 ∧ spriteBit row (x - x0) = true) := fun h => hx ⟨h.2.1, h.2.2.1⟩
    unfold spriteAt
    rw [decide_eq_false h1, decide_eq_false h2, decide_eq_false h3]; rfl

theorem spriteAt_above (rows : List Byte) (x0 y0 x y : Nat) (h : y < y0) : spriteAt rows x0 y0 x y = false := by
  have : ¬ y0 ≤ y := by omega
  simp [spriteAt, this]

/-- Everything the rows of a sprite do: the pixels, and the collision bit. -/
theorem Canvas.drawRows_spec (c : Canvas) (x0 y0 : Nat) (rows : List Byte) :
    (∀ x y, x < 64 ∧ y < 32 →
      (c.drawRows x0 y0 rows).1.pixel x y = (c.1.pixel x y ^^ spriteAt rows x0 y0 x y)) ∧
    ((c.drawRows x0 y0 rows).2 = true ↔
      c.2 = true ∨ ∃ x y, x < 64 ∧ y < 32 ∧ spriteAt rows x0 y0 x y = true ∧ c.1.pixel x y = true) := by
  induction rows generalizing c y0 with
  | nil => simp [Canvas.drawRows, spriteAt]
  | cons row rows ih =>
    obtain ⟨hp, hc⟩ := c.foldl_plot row x0 y0 8
    change (∀ x' y', _ → (c.drawRow row x0 y0).1.pixel x' y' = _) at hp
    change (c.drawRow row x0 y0).2 = _ at hc
    obtain ⟨ihp, ihc⟩ := ih (c.drawRow row x0 y0) (y0 + 1)
    refine ⟨fun x y h => ?_, ?_⟩
    · rw [Canvas.drawRows, ihp x y h, hp x y h, spriteAt_cons]
      by_cases hy : y0 = y
      · subst hy; simp [spriteAt_above rows x0 (y0 + 1) x y0 (by omega)]
      · simp [hy]
    · rw [Canvas.drawRows, ihc, hc]
      simp only [Bool.or_eq_true, decide_eq_true_eq, spriteAt_cons]
      constructor
      · rintro ((h | ⟨k, hk, hb, hpix⟩) | ⟨x, y, hx, hy, hs, hpix⟩)
        · exact .inl h
        · have hin : x0 + k < 64 ∧ y0 < 32 := by
            by_contra hn
            rw [Screen.pixel_outside _ _ _ hn] at hpix
            exact nomatch hpix
          exact .inr ⟨x0 + k, y0, hin.1, hin.2, .inl ⟨rfl, by omega, by omega, by simpa using hb⟩, hpix⟩
        · have hne : y0 ≠ y := fun h => by
            rw [spriteAt_above rows x0 (y0 + 1) x y (by omega)] at hs
            exact nomatch hs
          rw [hp x y ⟨hx, hy⟩] at hpix
          exact .inr ⟨x, y, hx, hy, .inr hs, by simpa [hne] using hpix⟩
      · rintro (h | ⟨x, y, hx, hy, ⟨rfl, h1, h2, hb⟩ | hs, hpix⟩)
        · exact .inl (.inl h)
        · have hk : x0 + (x - x0) = x := by omega
          exact .inl (.inr ⟨x - x0, by omega, hb, by rw [hk]; exact hpix⟩)
        · have hne : y0 ≠ y := fun h => by
            rw [spriteAt_above rows x0 (y0 + 1) x y (by omega)] at hs
            exact nomatch hs
          exact .inr ⟨x, y, hx, hy, hs, by rw [hp x y ⟨hx, hy⟩]; simp [hne, hpix]⟩

end Sys2Proof.Machine
end

