-- ==== Sys2Proof/Laws/Encoding.lean ====
section
/-! SUPPORT. The fields of an encoded word, its bytes, and what masking a word leaves. -/

namespace Sys2Proof

variable (f : Nat) (x y n : Fin 16) (nn : Byte) (a : Addr)

theorem toNat_wordXYN (hf : f < 16) : (wordXYN f x y n).toNat = f * 4096 + x.val * 256 + y.val * 16 + n.val := by
  simp [wordXYN]; omega

theorem toNat_wordXNN (hf : f < 16) : (wordXNN f x nn).toNat = f * 4096 + x.val * 256 + nn.toNat := by
  simp [wordXNN]; omega

theorem toNat_wordNNN (hf : f < 16) : (wordNNN f a).toNat = f * 4096 + a.toNat := by
  simp [wordNNN]; omega

/-! ### Fields of an encoded word -/

theorem fieldF_wordXYN (hf : f < 16) : (fieldF (wordXYN f x y n)).val = f := by
  simp only [fieldF, toNat_wordXYN f x y n hf]; omega

theorem fieldX_wordXYN (hf : f < 16) : fieldX (wordXYN f x y n) = x := by
  apply Fin.ext; simp only [fieldX, toNat_wordXYN f x y n hf]; omega

theorem fieldY_wordXYN (hf : f < 16) : fieldY (wordXYN f x y n) = y := by
  apply Fin.ext; simp only [fieldY, toNat_wordXYN f x y n hf]; omega

theorem fieldN_wordXYN (hf : f < 16) : fieldN (wordXYN f x y n) = n := by
  apply Fin.ext; simp only [fieldN, toNat_wordXYN f x y n hf]; omega

theorem fieldF_wordXNN (hf : f < 16) : (fieldF (wordXNN f x nn)).val = f := by
  simp only [fieldF, toNat_wordXNN f x nn hf]; omega

theorem fieldX_wordXNN (hf : f < 16) : fieldX (wordXNN f x nn) = x := by
  apply Fin.ext; simp only [fieldX, toNat_wordXNN f x nn hf]; omega

theorem fieldNN_wordXNN (hf : f < 16) : fieldNN (wordXNN f x nn) = nn := by
  apply BitVec.eq_of_toNat_eq
  simp only [fieldNN, BitVec.toNat_setWidth, toNat_wordXNN f x nn hf]; omega

theorem fieldF_wordNNN (hf : f < 16) : (fieldF (wordNNN f a)).val = f := by
  simp only [fieldF, toNat_wordNNN f a hf]; omega

theorem fieldNNN_wordNNN (hf : f < 16) : fieldNNN (wordNNN f a) = a := by
  apply BitVec.eq_of_toNat_eq
  simp only [fieldNNN, BitVec.toNat_setWidth, toNat_wordNNN f a hf]; omega

/-! ### The two bytes of a word -/

theorem toNat_wordOfBytes (hi lo : Byte) : (wordOfBytes hi lo).toNat = hi.toNat * 256 + lo.toNat := by
  rw [wordOfBytes, BitVec.toNat_append, ← Nat.shiftLeft_add_eq_or_of_lt lo.isLt, Nat.shiftLeft_eq]

theorem wordOfBytes_bytes (w : Word) : wordOfBytes (hiByte w) (loByte w) = w := by
  apply BitVec.eq_of_toNat_eq
  rw [toNat_wordOfBytes]
  simp only [hiByte, loByte, BitVec.extractLsb'_toNat, BitVec.toNat_setWidth, Nat.shiftRight_eq_div_pow]
  omega

/-! ### Masks -/

theorem mask_family (w : Word) (f : Nat) (h : w.toNat / 4096 = f) : w &&& 0xF000#16 = BitVec.ofNat 16 (f * 4096) := by
  have : w &&& 0xF000#16 = (w >>> 12) <<< 12 := by
    ext i hi
    interval_cases i <;> simp
  rw [this]
  apply BitVec.eq_of_toNat_eq
  simp [Nat.shiftRight_eq_div_pow, Nat.shiftLeft_eq, h]

theorem mask_low4 (w : Word) (n : Nat) (h : w.toNat % 16 = n) : w &&& 0x000F#16 = BitVec.ofNat 16 n := by
  have : w &&& 0x000F#16 = (w.setWidth 4).setWidth 16 := by
    ext i hi
    interval_cases i <;> simp
  rw [this]
  apply BitVec.eq_of_toNat_eq
  simp [← h]

theorem mask_low8 (w : Word) (n : Nat) (h : w.toNat % 256 = n) : w &&& 0x00FF#16 = BitVec.ofNat 16 n := by
  have : w &&& 0x00FF#16 = (w.setWidth 8).setWidth 16 := by
    ext i hi
    interval_cases i <;> simp
  rw [this]
  apply BitVec.eq_of_toNat_eq
  simp [← h]

theorem and_or_masks (w a b : Word) : w &&& (a ||| b) = (w &&& a) ||| (w &&& b) := by
  ext i hi
  simp [Bool.and_or_distrib_left]

/-- A word whose masked family bits are those of family `f` is of family `f`. -/
theorem family_of_mask (w : Word) (hf : f < 16) (h : w &&& 0xF000#16 = BitVec.ofNat 16 (f * 4096)) :
    (fieldF w).val = f := by
  rw [mask_family w _ rfl] at h
  have := congrArg BitVec.toNat h
  simp only [BitVec.toNat_ofNat] at this
  simp only [fieldF]; omega

/-- The mask 0xF00F fixes the family and the low nibble. -/
theorem fields_of_mask_XYN (w : Word) (m : Nat) (hf : f < 16) (hm : m < 16)
    (h : w &&& 0xF00F#16 = BitVec.ofNat 16 (f * 4096 + m)) : (fieldF w).val = f ∧ (fieldN w).val = m := by
  have h1 : w &&& 0xF000#16 = BitVec.ofNat 16 (f * 4096 + m) &&& 0xF000#16 := by
    rw [← h, BitVec.and_assoc, show 0xF00F#16 &&& 0xF000#16 = 0xF000#16 from rfl]
  have h2 : w &&& 0x000F#16 = BitVec.ofNat 16 (f * 4096 + m) &&& 0x000F#16 := by
    rw [← h, BitVec.and_assoc, show 0xF00F#16 &&& 0x000F#16 = 0x000F#16 from rfl]
  rw [mask_family (BitVec.ofNat 16 (f * 4096 + m)) f (by simp; omega)] at h1
  rw [mask_low4 (BitVec.ofNat 16 (f * 4096 + m)) m (by simp; omega), mask_low4 w _ rfl] at h2
  have := congrArg BitVec.toNat h2
  simp only [BitVec.toNat_ofNat] at this
  exact ⟨family_of_mask f w hf h1, by simp only [fieldN]; omega⟩

/-- The mask 0xF0FF fixes the family and the low byte. -/
theorem fields_of_mask_XNN (w : Word) (m : Nat) (hf : f < 16) (hm : m < 256)
    (h : w &&& 0xF0FF#16 = BitVec.ofNat 16 (f * 4096 + m)) : (fieldF w).val = f ∧ (fieldNN w).toNat = m := by
  have h1 : w &&& 0xF000#16 = BitVec.ofNat 16 (f * 4096 + m) &&& 0xF000#16 := by
    rw [← h, BitVec.and_assoc, show 0xF0FF#16 &&& 0xF000#16 = 0xF000#16 from rfl]
  have h2 : w &&& 0x00FF#16 = BitVec.ofNat 16 (f * 4096 + m) &&& 0x00FF#16 := by
    rw [← h, BitVec.and_assoc, show 0xF0FF#16 &&& 0x00FF#16 = 0x00FF#16 from rfl]
  rw [mask_family (BitVec.ofNat 16 (f * 4096 + m)) f (by simp; omega)] at h1
  rw [mask_low8 (BitVec.ofNat 16 (f * 4096 + m)) m (by simp; omega), mask_low8 w _ rfl] at h2
  have := congrArg BitVec.toNat h2
  simp only [BitVec.toNat_ofNat] at this
  exact ⟨family_of_mask f w hf h1, by simp only [fieldNN, BitVec.toNat_setWidth]; omega⟩

/-- A word of family `f` with the sub-opcode `m` in its low nibble. -/
theorem mask_wordXYN (m : Fin 16) (hf : f < 16) :
    wordXYN f x y m &&& 0xF00F#16 = BitVec.ofNat 16 (f * 4096) ||| BitVec.ofNat 16 m.val := by
  have h := toNat_wordXYN f x y m hf
  rw [show 0xF00F#16 = 0xF000#16 ||| 0x000F#16 from rfl, and_or_masks, mask_family _ f (by omega),
    mask_low4 _ m.val (by omega)]

/-- A word of family `f` with the sub-opcode `m` in its low byte. -/
theorem mask_wordXNN (m : Byte) (hf : f < 16) :
    wordXNN f x m &&& 0xF0FF#16 = BitVec.ofNat 16 (f * 4096) ||| BitVec.ofNat 16 m.toNat := by
  have h := toNat_wordXNN f x m hf
  rw [show 0xF0FF#16 = 0xF000#16 ||| 0x00FF#16 from rfl, and_or_masks, mask_family _ f (by omega),
    mask_low8 _ m.toNat (by omega)]

theorem family_wordXNN (hf : f < 16) : wordXNN f x nn &&& 0xF000#16 = BitVec.ofNat 16 (f * 4096) :=
  mask_family _ f (by have := toNat_wordXNN f x nn hf; omega)

theorem family_wordNNN (hf : f < 16) : wordNNN f a &&& 0xF000#16 = BitVec.ofNat 16 (f * 4096) :=
  mask_family _ f (by have := toNat_wordNNN f a hf; omega)

theorem family_wordXYN (hf : f < 16) : wordXYN f x y n &&& 0xF000#16 = BitVec.ofNat 16 (f * 4096) :=
  mask_family _ f (by have := toNat_wordXYN f x y n hf; omega)

/-! ### A word is made of its fields -/

theorem wordXYN_fields (w : Word) (h : (fieldF w).val = f) : wordXYN f (fieldX w) (fieldY w) (fieldN w) = w := by
  have := w.isLt
  apply BitVec.eq_of_toNat_eq; subst h; simp [wordXYN, fieldF, fieldX, fieldY, fieldN]; omega

theorem wordXNN_fields (w : Word) (h : (fieldF w).val = f) : wordXNN f (fieldX w) (fieldNN w) = w := by
  have := w.isLt
  apply BitVec.eq_of_toNat_eq; subst h; simp [wordXNN, fieldF, fieldX, fieldNN]; omega

theorem wordNNN_fields (w : Word) (h : (fieldF w).val = f) : wordNNN f (fieldNNN w) = w := by
  have := w.isLt
  apply BitVec.eq_of_toNat_eq; subst h; simp [wordNNN, fieldF, fieldNNN]; omega

end Sys2Proof
end

