-- ==== Sys2Proof/Laws/Exec.lean ====
section
/-! SUPPORT. For each instruction that can end in more than one way, everything it can do; and that no arm refuses. The
other instructions answer one next state, their definition. -/

namespace Sys2Proof.Machine

variable (s : State)

/-- Everything a register write of families 6, 7 and 8 without a flag does. -/
theorem writeV_spec (x : Reg) (r : Byte) :
    ∃ t, (writeV x r s).result s = .next t ∧ t.v x = r ∧ OtherRegsSame [x] s t ∧ t.pc = s.pc + 2 ∧ Frame [.V, .pc] s t := by
  refine ⟨_, rfl, by simp, fun k hk => ?_, rfl, fun p hp => ?_⟩
  · simp only [List.mem_singleton] at hk; simp [State.v_setV, hk]
  · cases p <;> simp_all [Part.same]

/-- Everything a register write with a flag does: the flag is the last write. -/
theorem writeVAndFlag_spec (x : Reg) (r f : Byte) :
    ∃ t, (writeVAndFlag x r f s).result s = .next t ∧ (x ≠ Reg.vf → t.v x = r) ∧ t.v Reg.vf = f ∧
      OtherRegsSame [x, Reg.vf] s t ∧ t.pc = s.pc + 2 ∧ Frame [.V, .pc] s t := by
  refine ⟨_, rfl, fun h => ?_, by simp, fun k hk => ?_, rfl, fun p hp => ?_⟩
  · simp [State.v_setV, h]
  · simp only [List.mem_cons, List.not_mem_nil, or_false, not_or] at hk; simp [State.v_setV, hk]
  · cases p <;> simp_all [Part.same]

theorem execRet_cases :
    (s.sp.val = 0 ∧ execRet s = .fault .stackUnderflow) ∨
    ∃ h : 0 < s.sp.val, execRet s =
      .next { s with sp := ⟨s.sp.val - 1, by omega⟩, pc := (s.stack[s.sp.val - 1]'(by omega)) + 2 } := by
  rcases s.pop_cases with ⟨hp, h⟩ | ⟨h, hp⟩
  · exact .inl ⟨h, by simp [execRet, retOutcome, Outcome.result, hp, raise]⟩
  · exact .inr ⟨h, by simp [execRet, retOutcome, Outcome.result, hp, succeed, State.setPc]⟩

theorem execCall_cases (n : Addr) :
    (s.sp.val = 16 ∧ execCall n s = .fault .stackOverflow) ∨
    ∃ h : s.sp.val < 16, execCall n s =
      .next { s with stack := s.stack.set s.sp.val s.pc, sp := ⟨s.sp.val + 1, by omega⟩, pc := addrWord n } := by
  rcases s.push_cases s.pc with ⟨hp, h⟩ | ⟨h, hp⟩
  · exact .inl ⟨h, by simp [execCall, callOutcome, Outcome.result, hp, raise]⟩
  · exact .inr ⟨h, by simp [execCall, callOutcome, Outcome.result, hp, succeed, State.setPc]⟩

theorem execSkp_cases (x : Reg) :
    (15 < (s.v x).toNat ∧ execSkp x s = .fault .keyRange) ∨
    ∃ k : Reg, (s.v x).toNat = k.val ∧ execSkp x s = .next (s.skipIf s.key[k.val]) := by
  cases hk : keyIndex (s.v x) with
  | none => exact .inl ⟨(keyIndex_none _).mp hk, by simp [execSkp, skpOutcome, Outcome.result, hk, raise]⟩
  | some k => exact .inr ⟨k, (keyIndex_some _ _).mp hk, by simp [execSkp, skpOutcome, Outcome.result, hk, succeed]⟩

theorem execSknp_cases (x : Reg) :
    (15 < (s.v x).toNat ∧ execSknp x s = .fault .keyRange) ∨
    ∃ k : Reg, (s.v x).toNat = k.val ∧ execSknp x s = .next (s.skipIf (!s.key[k.val])) := by
  cases hk : keyIndex (s.v x) with
  | none => exact .inl ⟨(keyIndex_none _).mp hk, by simp [execSknp, sknpOutcome, Outcome.result, hk, raise]⟩
  | some k => exact .inr ⟨k, (keyIndex_some _ _).mp hk, by simp [execSknp, sknpOutcome, Outcome.result, hk, succeed]⟩

/-- The scan over a list of keys, from an answer already found. -/
theorem foldl_pressed (key : Vector Bool 16) (l : List Reg) (found : Option Reg) :
    (l.foldl (fun found k => if key[k.val] then some k else found) found = none ↔
      found = none ∧ ∀ k ∈ l, key[k.val] = false) := by
  induction l generalizing found with
  | nil => simp
  | cons a l ih =>
    rw [List.foldl_cons, ih]
    by_cases ha : key[a.val] = true <;> simp [ha]

theorem pressedKey_none (key : Vector Bool 16) : pressedKey key = none ↔ ∀ k : Reg, key[k.val] = false := by
  simp [pressedKey, foldl_pressed]

/-- The last key of a rising list that is pressed is the one the scan answers. -/
theorem foldl_pressed_last (key : Vector Bool 16) (l : List Reg) (hl : l.Pairwise (· < ·)) (found : Option Reg) (k : Reg)
    (h : l.foldl (fun found k => if key[k.val] then some k else found) found = some k) :
    (k ∈ l ∧ key[k.val] = true ∧ ∀ j ∈ l, k < j → key[j.val] = false) ∨ (found = some k ∧ ∀ j ∈ l, key[j.val] = false) := by
  induction l generalizing found with
  | nil => exact .inr ⟨h, by simp⟩
  | cons a l ih =>
    obtain ⟨hal, hl'⟩ := List.pairwise_cons.mp hl
    rw [List.foldl_cons] at h
    rcases ih hl' _ h with ⟨hm, hk, hj⟩ | ⟨hf, hj⟩
    · refine .inl ⟨by simp [hm], hk, fun j hjm hkj => ?_⟩
      rcases List.mem_cons.mp hjm with rfl | hjm
      · exact absurd (hal k hm) (not_lt.mpr hkj.le)
      · exact hj j hjm hkj
    · by_cases ha : key[a.val] = true
      · simp only [ha, if_true, Option.some.injEq] at hf
        subst hf
        refine .inl ⟨by simp, ha, fun j hjm hkj => ?_⟩
        rcases List.mem_cons.mp hjm with rfl | hjm
        · exact absurd hkj (lt_irrefl _)
        · exact hj j hjm
      · simp only [ha, Bool.false_eq_true, if_false] at hf
        exact .inr ⟨hf, fun j hjm => by
          rcases List.mem_cons.mp hjm with rfl | hjm
          · simpa using ha
          · exact hj j hjm⟩

/-- The key the scan answers is pressed, and no key above it is. -/
theorem pressedKey_some (key : Vector Bool 16) (k : Reg) (h : pressedKey key = some k) :
    key[k.val] = true ∧ ∀ j : Reg, k < j → key[j.val] = false := by
  have hs : (List.finRange 16).Pairwise (· < ·) := by decide
  rcases foldl_pressed_last key _ hs none k h with ⟨-, hk, hj⟩ | ⟨hf, -⟩
  · exact ⟨hk, fun j hkj => hj j (List.mem_finRange j) hkj⟩
  · exact nomatch hf

theorem execLdVxK_cases (x : Reg) :
    ((∀ k : Reg, s.key[k.val] = false) ∧ execLdVxK x s = .next s) ∨
    ∃ k : Reg, s.key[k.val] = true ∧ (∀ j : Reg, k < j → s.key[j.val] = false) ∧
      execLdVxK x s = .next (s.setV x (BitVec.ofNat 8 k.val)).advancePc := by
  cases hk : pressedKey s.key with
  | none => exact .inl ⟨(pressedKey_none _).mp hk, by simp [execLdVxK, ldVxKOutcome, Outcome.result, hk, block]⟩
  | some k =>
    obtain ⟨h1, h2⟩ := pressedKey_some _ _ hk
    exact .inr ⟨k, h1, h2, by simp [execLdVxK, ldVxKOutcome, Outcome.result, hk, succeed]⟩

theorem execLdF_cases (x : Reg) :
    (15 < (s.v x).toNat ∧ execLdF x s = .fault .fontRange) ∨
    ((s.v x).toNat ≤ 15 ∧ execLdF x s = .next (s.setI (BitVec.ofNat 16 ((s.v x).toNat * 5))).advancePc) := by
  by_cases h : (s.v x).toNat ≤ 15
  · exact .inr ⟨h, by simp [execLdF, ldFOutcome, Outcome.result, glyphAddress, h, succeed]⟩
  · exact .inl ⟨by omega, by simp [execLdF, ldFOutcome, Outcome.result, glyphAddress, h, raise]⟩

theorem execLdB_cases (x : Reg) :
    (0xFFF < s.I.toNat + 2 ∧ execLdB x s = .fault .memRange) ∨
    (s.I.toNat + 3 ≤ memSize ∧
      execLdB x s = .next (s.setBytes s.I.toNat (decimalDigits (s.v x))).advancePc) := by
  by_cases h : accessOk s.I.toNat 3 = true
  · exact .inr ⟨by have := (accessOk_iff _ _).mp h; omega, by simp [execLdB, ldBOutcome, Outcome.result, h, succeed]⟩
  · refine .inl ⟨?_, by simp [execLdB, ldBOutcome, Outcome.result, h, raise]⟩
    have := mt (accessOk_iff _ _).mpr h
    simp only [memSize] at this; omega

theorem execStoreRegs_cases (x : Reg) :
    (0xFFF < s.I.toNat + x.val ∧ execStoreRegs x s = .fault .memRange) ∨
    (s.I.toNat + (x.val + 1) ≤ memSize ∧
      execStoreRegs x s = .next (s.setBytes s.I.toNat (regsUpTo s x)).advancePc) := by
  by_cases h : accessOk s.I.toNat (x.val + 1) = true
  · exact .inr ⟨by have := (accessOk_iff _ _).mp h; omega, by simp [execStoreRegs, storeRegsOutcome, Outcome.result, h, succeed]⟩
  · refine .inl ⟨?_, by simp [execStoreRegs, storeRegsOutcome, Outcome.result, h, raise]⟩
    have := mt (accessOk_iff _ _).mpr h
    simp only [memSize] at this; omega

theorem execLoadRegs_cases (x : Reg) :
    (0xFFF < s.I.toNat + x.val ∧ execLoadRegs x s = .fault .memRange) ∨
    (s.I.toNat + (x.val + 1) ≤ memSize ∧
      execLoadRegs x s = .next (s.setRegs 0 (s.bytes s.I.toNat (x.val + 1))).advancePc) := by
  by_cases h : accessOk s.I.toNat (x.val + 1) = true
  · exact .inr ⟨by have := (accessOk_iff _ _).mp h; omega, by simp [execLoadRegs, loadRegsOutcome, Outcome.result, h, succeed]⟩
  · refine .inl ⟨?_, by simp [execLoadRegs, loadRegsOutcome, Outcome.result, h, raise]⟩
    have := mt (accessOk_iff _ _).mpr h
    simp only [memSize] at this; omega

theorem execDrw_cases (x y : Reg) (n : RowCount) :
    (¬ (n.val = 0 ∨ s.I.toNat + n.val ≤ memSize) ∧ execDrw x y n s = .fault .memRange) ∨
    ((n.val = 0 ∨ s.I.toNat + n.val ≤ memSize) ∧ s.cfg.drawOffscreen = .invalid ∧
      boxOffscreen (s.v x).toNat (s.v y).toNat n.val = true ∧ execDrw x y n s = .fault .drawOffscreen) ∨
    ((n.val = 0 ∨ s.I.toNat + n.val ≤ memSize) ∧
      ¬ (s.cfg.drawOffscreen = .invalid ∧ boxOffscreen (s.v x).toNat (s.v y).toNat n.val = true) ∧
      execDrw x y n s = .next
        (((s.setScreen (Canvas.drawRows (s.fb, false) (s.v x).toNat (s.v y).toNat (s.bytes s.I.toNat n.val)).1).setV Reg.vf
          (collisionFlag
            (Canvas.drawRows (s.fb, false) (s.v x).toNat (s.v y).toNat (s.bytes s.I.toNat n.val)).2)).advancePc)) := by
  by_cases h : accessOk s.I.toNat n.val = true
  · have h' := (accessOk_iff _ _).mp h
    by_cases hb : s.cfg.drawOffscreen = .invalid ∧ boxOffscreen (s.v x).toNat (s.v y).toNat n.val = true
    · exact .inr (.inl ⟨h', hb.1, hb.2, by simp [execDrw, drwOutcome, Outcome.result, h, hb, raise]⟩)
    · refine .inr (.inr ⟨h', hb, ?_⟩)
      unfold execDrw drwOutcome
      simp only [h, Bool.true_eq_false, if_false, hb, succeed, Outcome.result]
  · exact .inl ⟨fun h' => h ((accessOk_iff _ _).mpr h'), by simp [execDrw, drwOutcome, Outcome.result, h, raise]⟩

/-- `exec` is the tagged outcome in the host's form, for every instruction. -/
theorem exec_eq_outcome (i : Instr) : exec i s = (outcome i s).result s := by cases i <;> rfl

/-- No arm of the dispatch refuses. -/
theorem exec_not_refused (i : Instr) (r : Refusal) : exec i s ≠ .refused r := by
  rw [exec_eq_outcome]
  cases outcome i s <;> exact fun h => nomatch h

/-- What each answer of `exec` says of the outcome, and conversely. -/
theorem exec_cases (i : Instr) :
    (∃ t, outcome i s = .success t ∧ exec i s = .next t) ∨ (outcome i s = .blocking ∧ exec i s = .next s) ∨
    (∃ c, outcome i s = .invalid c ∧ exec i s = .fault c) := by
  rw [exec_eq_outcome]
  cases outcome i s with
  | success t => exact .inl ⟨t, rfl, rfl⟩
  | blocking => exact .inr (.inl ⟨rfl, rfl⟩)
  | invalid c => exact .inr (.inr ⟨c, rfl, rfl⟩)

end Sys2Proof.Machine
end

