-- ==== Sys2Proof/Laws/ExecNext.lean ====
section
/-! SUPPORT. The one next state of each instruction that never stops, said once, so that no later proof unfolds the
dispatch. (The instructions that can end in more than one way have their `_cases` lemmas in Laws/Exec.lean.) -/

namespace Sys2Proof.Machine

variable (s : State)

theorem exec_cls : exec .cls s = .next ((s.setScreen Screen.blank).setPc (s.pc + 2)) := rfl

theorem exec_sys (n : Addr) : exec (.sys n) s = .next (s.setPc (addrWord n)) := rfl

theorem exec_jp (n : Addr) : exec (.jp n) s = .next (s.setPc (addrWord n)) := rfl

theorem exec_seImm (x : Reg) (nn : Byte) :
    exec (.seImm x nn) s = .next (s.setPc (if s.v x == nn then s.pc + 4 else s.pc + 2)) := rfl

theorem exec_sneImm (x : Reg) (nn : Byte) :
    exec (.sneImm x nn) s = .next (s.setPc (if s.v x != nn then s.pc + 4 else s.pc + 2)) := rfl

theorem exec_seReg (x y : Reg) :
    exec (.seReg x y) s = .next (s.setPc (if s.v x == s.v y then s.pc + 4 else s.pc + 2)) := rfl

theorem exec_ldImm (x : Reg) (nn : Byte) : exec (.ldImm x nn) s = .next ((s.setV x nn).setPc (s.pc + 2)) := rfl

theorem exec_addImm (x : Reg) (nn : Byte) :
    exec (.addImm x nn) s = .next ((s.setV x (s.v x + nn)).setPc (s.pc + 2)) := rfl

theorem exec_ldReg (x y : Reg) : exec (.ldReg x y) s = .next ((s.setV x (s.v y)).setPc (s.pc + 2)) := rfl

theorem exec_orReg (x y : Reg) : exec (.orReg x y) s = .next ((s.setV x (s.v x ||| s.v y)).setPc (s.pc + 2)) := rfl

theorem exec_andReg (x y : Reg) : exec (.andReg x y) s = .next ((s.setV x (s.v x &&& s.v y)).setPc (s.pc + 2)) := rfl

theorem exec_xorReg (x y : Reg) : exec (.xorReg x y) s = .next ((s.setV x (s.v x ^^^ s.v y)).setPc (s.pc + 2)) := rfl

theorem exec_addReg (x y : Reg) :
    exec (.addReg x y) s =
      .next (((s.setV x (s.v x + s.v y)).setV Reg.vf (carryFlag (s.v x) (s.v y))).setPc (s.pc + 2)) := rfl

theorem exec_subReg (x y : Reg) :
    exec (.subReg x y) s =
      .next (((s.setV x (s.v x - s.v y)).setV Reg.vf (notBorrowFlag (s.v x) (s.v y))).setPc (s.pc + 2)) := rfl

theorem exec_shr (x y : Reg) : exec (.shr x y) s = .next ((s.setV x (s.v x >>> 1)).setPc (s.pc + 2)) := rfl

theorem exec_subn (x y : Reg) :
    exec (.subn x y) s =
      .next (((s.setV x (s.v y - s.v x)).setV Reg.vf (notBorrowFlag (s.v y) (s.v x))).setPc (s.pc + 2)) := rfl

theorem exec_shl (x y : Reg) : exec (.shl x y) s = .next ((s.setV x (s.v x <<< 1)).setPc (s.pc + 2)) := rfl

theorem exec_sneReg (x y : Reg) :
    exec (.sneReg x y) s = .next (s.setPc (if s.v x != s.v y then s.pc + 4 else s.pc + 2)) := rfl

theorem exec_ldI (n : Addr) : exec (.ldI n) s = .next ((s.setI (addrWord n)).setPc (s.pc + 2)) := rfl

theorem exec_jpV0 (n : Addr) : exec (.jpV0 n) s = .next (s.setPc (addrWord n + byteWord (s.v 0))) := rfl

theorem exec_rnd (x : Reg) (nn : Byte) :
    exec (.rnd x nn) s = .next ((s.setV x (Config.randomByte s.draws &&& nn)).countDraw.setPc (s.pc + 2)) := rfl

theorem exec_ldVxDT (x : Reg) : exec (.ldVxDT x) s = .next ((s.setV x s.dt).setPc (s.pc + 2)) := rfl

theorem exec_ldDTVx (x : Reg) : exec (.ldDTVx x) s = .next ((s.setDt (s.v x)).setPc (s.pc + 2)) := rfl

theorem exec_ldSTVx (x : Reg) : exec (.ldSTVx x) s = .next ((s.setSt (s.v x)).setPc (s.pc + 2)) := rfl

theorem exec_addI (x : Reg) : exec (.addI x) s = .next ((s.setI (s.I + byteWord (s.v x))).setPc (s.pc + 2)) := rfl

end Sys2Proof.Machine
end

