-- ==== Sys2Proof/Laws/PerInstr.lean ====
section
/-! SUPPORT. Statements made per instruction, one lemma per constructor. EncodeFits: the encoded word has the mask and
match of the instruction's row of spec/opcode_table.json. -/

namespace Sys2Proof.Laws.EncodeFits

/-- The encoded word agrees with the row's match on the bits of its mask (spec/30_encoding.md R93). -/
def Statement (i : Instr) : Prop := encodeWord i &&& i.opcodeRow.1 = i.opcodeRow.2

theorem cls : Statement .cls := rfl
theorem ret : Statement .ret := rfl
theorem sys (n : Addr) : Statement (.sys n) := family_wordNNN 0 n (by decide)
theorem jp (n : Addr) : Statement (.jp n) := family_wordNNN 1 n (by decide)
theorem call (n : Addr) : Statement (.call n) := family_wordNNN 2 n (by decide)
theorem seImm (x : Reg) (nn : Byte) : Statement (.seImm x nn) := family_wordXNN 3 x nn (by decide)
theorem sneImm (x : Reg) (nn : Byte) : Statement (.sneImm x nn) := family_wordXNN 4 x nn (by decide)
theorem seReg (x y : Reg) : Statement (.seReg x y) := mask_wordXYN 5 x y 0x0 (by decide)
theorem ldImm (x : Reg) (nn : Byte) : Statement (.ldImm x nn) := family_wordXNN 6 x nn (by decide)
theorem addImm (x : Reg) (nn : Byte) : Statement (.addImm x nn) := family_wordXNN 7 x nn (by decide)
theorem ldReg (x y : Reg) : Statement (.ldReg x y) := mask_wordXYN 8 x y 0x0 (by decide)
theorem orReg (x y : Reg) : Statement (.orReg x y) := mask_wordXYN 8 x y 0x1 (by decide)
theorem andReg (x y : Reg) : Statement (.andReg x y) := mask_wordXYN 8 x y 0x2 (by decide)
theorem xorReg (x y : Reg) : Statement (.xorReg x y) := mask_wordXYN 8 x y 0x3 (by decide)
theorem addReg (x y : Reg) : Statement (.addReg x y) := mask_wordXYN 8 x y 0x4 (by decide)
theorem subReg (x y : Reg) : Statement (.subReg x y) := mask_wordXYN 8 x y 0x5 (by decide)
theorem shr (x y : Reg) : Statement (.shr x y) := mask_wordXYN 8 x y 0x6 (by decide)
theorem subn (x y : Reg) : Statement (.subn x y) := mask_wordXYN 8 x y 0x7 (by decide)
theorem shl (x y : Reg) : Statement (.shl x y) := mask_wordXYN 8 x y 0xE (by decide)
theorem sneReg (x y : Reg) : Statement (.sneReg x y) := mask_wordXYN 9 x y 0x0 (by decide)
theorem ldI (n : Addr) : Statement (.ldI n) := family_wordNNN 0xA n (by decide)
theorem jpV0 (n : Addr) : Statement (.jpV0 n) := family_wordNNN 0xB n (by decide)
theorem rnd (x : Reg) (nn : Byte) : Statement (.rnd x nn) := family_wordXNN 0xC x nn (by decide)
theorem drw (x y : Reg) (n : RowCount) : Statement (.drw x y n) := family_wordXYN 0xD x y n (by decide)
theorem skp (x : Reg) : Statement (.skp x) := mask_wordXNN 0xE x 0x9E (by decide)
theorem sknp (x : Reg) : Statement (.sknp x) := mask_wordXNN 0xE x 0xA1 (by decide)
theorem ldVxDT (x : Reg) : Statement (.ldVxDT x) := mask_wordXNN 0xF x 0x07 (by decide)
theorem ldVxK (x : Reg) : Statement (.ldVxK x) := mask_wordXNN 0xF x 0x0A (by decide)
theorem ldDTVx (x : Reg) : Statement (.ldDTVx x) := mask_wordXNN 0xF x 0x15 (by decide)
theorem ldSTVx (x : Reg) : Statement (.ldSTVx x) := mask_wordXNN 0xF x 0x18 (by decide)
theorem addI (x : Reg) : Statement (.addI x) := mask_wordXNN 0xF x 0x1E (by decide)
theorem ldF (x : Reg) : Statement (.ldF x) := mask_wordXNN 0xF x 0x29 (by decide)
theorem ldB (x : Reg) : Statement (.ldB x) := mask_wordXNN 0xF x 0x33 (by decide)
theorem storeRegs (x : Reg) : Statement (.storeRegs x) := mask_wordXNN 0xF x 0x55 (by decide)
theorem loadRegs (x : Reg) : Statement (.loadRegs x) := mask_wordXNN 0xF x 0x65 (by decide)

end Sys2Proof.Laws.EncodeFits
end

