-- ==== Sys2Proof/Laws/Step.lean ====
section
/-! SUPPORT. Everything `advance`, `tick`, `step` and the host operations can do, each said once. -/

namespace Sys2Proof.Machine

variable (s : State)

/-- Everything `advance` does. -/
theorem State.advance_cases :
    (s.cc + 1 < s.cfg.cyclesPerTick ∧ s.advance = (s.setCc (s.cc + 1), false)) ∨
    (s.cfg.cyclesPerTick ≤ s.cc + 1 ∧ s.st.toNat = 0 ∧
      s.advance = ((s.setCc 0).setDt (if 0 < s.dt.toNat then s.dt - 1 else 0), false)) ∨
    (s.cfg.cyclesPerTick ≤ s.cc + 1 ∧ 0 < s.st.toNat ∧
      s.advance = (((s.setCc 0).setDt (if 0 < s.dt.toNat then s.dt - 1 else 0)).setSt (s.st - 1), true)) := by
  by_cases h : s.cc + 1 < s.cfg.cyclesPerTick
  · exact .inl ⟨h, by simp only [State.advance, h, if_true]⟩
  · by_cases hs : 0 < s.st.toNat
    · exact .inr (.inr ⟨by omega, hs, by simp only [State.advance, h, hs, if_false, if_true]⟩)
    · exact .inr (.inl ⟨by omega, by omega, by simp only [State.advance, h, hs, if_false]⟩)

/-- `advance` touches the cycle counter and the timers only. -/
theorem State.advance_frame : Frame [.cc, .dt, .st] s s.advance.1 := by
  intro p hp
  rcases s.advance_cases with ⟨-, h⟩ | ⟨-, -, h⟩ | ⟨-, -, h⟩ <;> rw [h] <;> cases p <;>
    simp_all [Part.same]

@[simp] theorem State.advance_pc : s.advance.1.pc = s.pc := s.advance_frame .pc (by decide)
@[simp] theorem State.advance_stack : s.advance.1.stack = s.stack := s.advance_frame .stack (by decide)
@[simp] theorem State.advance_cfg : s.advance.1.cfg = s.cfg := s.advance_frame .cfg (by decide)
@[simp] theorem State.advance_mem : s.advance.1.mem = s.mem := by
  rcases s.advance_cases with ⟨-, h⟩ | ⟨-, -, h⟩ | ⟨-, -, h⟩ <;> rw [h] <;> rfl

/-- What a tick can be: a no-op of a halted or an empty machine, a Stop, a Blocking that does not tick, or an outcome with
a next state (a Success, or a Blocking that ticks) and `advance` after it. -/
theorem tick_cases :
    (s.halted = true ∧ tick s = .next ⟨.halted, s, false⟩) ∨
    (s.halted = false ∧ s.loaded = false ∧ tick s = .next ⟨.notLoaded, s, false⟩) ∨
    (s.Running ∧ s.fetch = none ∧ tick s = .next ⟨.stop .fetchRange s.pc none, s.stop, false⟩) ∨
    (∃ w c, s.Running ∧ s.fetch = some w ∧ execute w s = .invalid c ∧
      tick s = .next ⟨.stop c s.pc (some w), s.stop, false⟩) ∨
    (∃ w i, s.Running ∧ s.fetch = some w ∧ decodeWord w = .ok i ∧ outcome i s = .blocking ∧
      s.cfg.tickOnBlocking = false ∧ tick s = .next ⟨.cont, s, false⟩) ∨
    (∃ w i s1, s.Running ∧ s.fetch = some w ∧ decodeWord w = .ok i ∧ exec i s = .next s1 ∧
      (outcome i s = .success s1 ∨ (outcome i s = .blocking ∧ s1 = s ∧ s.cfg.tickOnBlocking = true)) ∧
      tick s = .next ⟨.cont, s1.advance.1, s1.advance.2⟩) := by
  by_cases hh : s.halted = true
  · exact .inl ⟨hh, by simp only [tick, hh, if_true]⟩
  simp only [Bool.not_eq_true] at hh
  by_cases hl : s.loaded = true
  swap
  · exact .inr (.inl ⟨hh, by simpa using hl, by simp [tick, hh, hl]⟩)
  have hr : s.Running := ⟨hl, hh⟩
  cases hf : s.fetch with
  | none => exact .inr (.inr (.inl ⟨hr, rfl, by simp [tick, hh, hl, hf]⟩))
  | some w =>
    have ht : tick s = .next (settle w s (execute w s)) := by simp [tick, hh, hl, hf]
    cases hd : decodeWord w with
    | error e =>
      have he : execute w s = .invalid .badOpcode := by simp [execute, hd, raise]
      exact .inr (.inr (.inr (.inl ⟨w, .badOpcode, hr, rfl, he, by rw [ht, he]; rfl⟩)))
    | ok i =>
      have he : execute w s = outcome i s := by simp [execute, hd]
      rcases exec_cases s i with ⟨s1, ho, hx⟩ | ⟨ho, hx⟩ | ⟨c, ho, -⟩
      · exact .inr (.inr (.inr (.inr (.inr ⟨w, i, s1, hr, rfl, hd, hx, .inl ho, by rw [ht, he, ho]; rfl⟩))))
      · cases hp : s.cfg.tickOnBlocking with
        | false =>
          exact .inr (.inr (.inr (.inr (.inl ⟨w, i, hr, rfl, hd, ho, rfl, by rw [ht, he, ho]; simp [settle, hp]⟩))))
        | true =>
          exact .inr (.inr (.inr (.inr (.inr
            ⟨w, i, s, hr, rfl, hd, hx, .inr ⟨ho, rfl, rfl⟩, by rw [ht, he, ho]; simp [settle, hp]⟩))))
      · exact .inr (.inr (.inr (.inl ⟨w, c, hr, rfl, he.trans ho, by rw [ht, he, ho]; rfl⟩)))

/-- What a step can answer: the same state (not loaded, halted, or Blocking), the halted latch set, or an instruction's
next state with the cycle counter advanced. -/
theorem step_cases :
    (step s = .next s) ∨ (s.Running ∧ step s = .next s.stop) ∨
    (∃ w i s1, s.Running ∧ s.fetch = some w ∧ decodeWord w = .ok i ∧ exec i s = .next s1 ∧
      step s = .next s1.advance.1) := by
  rcases tick_cases s with ⟨-, h⟩ | ⟨-, -, h⟩ | ⟨hr, -, h⟩ | ⟨_, _, hr, -, -, h⟩ | ⟨_, _, -, -, -, -, -, h⟩ |
    ⟨w, i, s1, hr, hf, hd, hx, -, h⟩
  · exact .inl (by simp [step, h, stateOfTick])
  · exact .inl (by simp [step, h, stateOfTick])
  · exact .inr (.inl ⟨hr, by simp [step, h, stateOfTick]⟩)
  · exact .inr (.inl ⟨hr, by simp [step, h, stateOfTick]⟩)
  · exact .inl (by simp [step, h, stateOfTick])
  · exact .inr (.inr ⟨w, i, s1, hr, hf, hd, hx, by simp [step, h, stateOfTick]⟩)

/-- A load either changes nothing or copies the image and sets the loaded flag. -/
theorem hostLoad_cases (image : List Byte) :
    (hostLoad s image = none ∧ (s.loaded = true ∨ image.length = 0 ∨ romMax < image.length)) ∨
    (s.loaded = false ∧ 0 < image.length ∧ image.length ≤ romMax ∧
      hostLoad s image = some { s.setBytes 0x200 image with loaded := true }) := by
  by_cases h : s.loaded = true ∨ image.length = 0 ∨ romMax < image.length
  · exact .inl ⟨by simp only [hostLoad, h, if_true], h⟩
  · have h' : s.loaded = false := by simpa using fun hl => h (.inl hl)
    exact .inr ⟨h', by omega, by omega, by simp only [hostLoad, h, if_false]⟩

end Sys2Proof.Machine
end

