-- ==== Sys2Proof/Tests/Slice0.lean ====
section
/-! SUPPORT. The model's own tests: ill-formed terms, words written out from the encodings of spec/30_encoding.md and the
rules, single steps with the results the rules' examples and spec/95_test_vectors.md give, and for every obligation with
hypotheses a state and operands that meet them. -/

namespace Sys2Proof.Tests

open Sys2Proof Sys2Proof.Machine

/-! ### Helpers -/

/-- A loaded machine right after reset. -/
def base : State := { State.reset with loaded := true }

/-- What `f` reads in the state after the word; nothing when the outcome is no Success. -/
def after {α : Type} (w : Word) (s : State) (f : State → α) : Option α :=
  match execute w s with
  | .success t => some (f t)
  | .blocking => none
  | .invalid _ => none

/-- The reason the word is Invalid for. -/
def stopOf (w : Word) (s : State) : Option Fault :=
  match execute w s with
  | .success _ => none
  | .blocking => none
  | .invalid c => some c

/-- What `f` reads in the answer of a tick. -/
def ticked {α : Type} (s : State) (f : Tick → α) : Option α :=
  match tick s with
  | .next t => some (f t)
  | .fault _ => none
  | .refused _ => none

/-- What a word decodes to. -/
def word (w : Word) : Option Instr := (decodeWord w).toOption

/-- The machine with `sp` entries in use. -/
def withStack (sp : Fin 17) (stack : Vector Word 16) : State := { base with sp := sp, stack := stack }

/-- The machine with one key pressed. -/
def withKey (k : Reg) : State := { base with key := base.key.set k.val true }

/-- The machine under the edge policy `invalid`. -/
def strict : State := { base with cfg := { Config.default with drawOffscreen := .invalid } }

/-- The machine that ticks on Blocking. -/
def ticking : State := { base with cfg := { Config.default with tickOnBlocking := true } }

/-! ### Well-formedness: the one check, and the terms it refuses (R93, R122) -/

theorem test_wf_sys_00E0 : (Instr.sys 0x0E0).wf = false := by decide
theorem test_wf_sys_00EE : (Instr.sys 0x0EE).wf = false := by decide
theorem test_wf_sys_others : (Instr.sys 0x0E1).wf = true ∧ (Instr.sys 0x000).wf = true ∧ Instr.cls.wf = true := by decide

/-! ### Decoding: one word per constructor, written from the rule's match value and the fields of table T8 -/

theorem test_decode_cls : word 0b0000_0000_1110_0000 = some .cls := by decide
theorem test_decode_ret : word 0b0000_0000_1110_1110 = some .ret := by decide
theorem test_decode_sys : word 0b0000_0011_0100_0101 = some (.sys 0x345) := by decide
theorem test_decode_jp : word 0b0001_0010_0000_1010 = some (.jp 0x20A) := by decide
theorem test_decode_call : word 0b0010_0010_0000_1000 = some (.call 0x208) := by decide
theorem test_decode_seImm : word 0b0011_0011_0100_0010 = some (.seImm 3 0x42) := by decide
theorem test_decode_sneImm : word 0b0100_0011_0100_0010 = some (.sneImm 3 0x42) := by decide
theorem test_decode_seReg : word 0b0101_0001_0010_0000 = some (.seReg 1 2) := by decide
theorem test_decode_ldImm : word 0b0110_1010_0010_1011 = some (.ldImm 0xA 0x2B) := by decide
theorem test_decode_addImm : word 0b0111_0000_0000_0010 = some (.addImm 0 0x02) := by decide
theorem test_decode_ldReg : word 0b1000_0001_0010_0000 = some (.ldReg 1 2) := by decide
theorem test_decode_orReg : word 0b1000_0001_0010_0001 = some (.orReg 1 2) := by decide
theorem test_decode_andReg : word 0b1000_0001_0010_0010 = some (.andReg 1 2) := by decide
theorem test_decode_xorReg : word 0b1000_0001_0010_0011 = some (.xorReg 1 2) := by decide
theorem test_decode_addReg : word 0b1000_0001_0010_0100 = some (.addReg 1 2) := by decide
theorem test_decode_subReg : word 0b1000_0001_0010_0101 = some (.subReg 1 2) := by decide
theorem test_decode_shr : word 0b1000_0001_0010_0110 = some (.shr 1 2) := by decide
theorem test_decode_subn : word 0b1000_0001_0010_0111 = some (.subn 1 2) := by decide
theorem test_decode_shl : word 0b1000_0001_0010_1110 = some (.shl 1 2) := by decide
theorem test_decode_sneReg : word 0b1001_0001_0010_0000 = some (.sneReg 1 2) := by decide
theorem test_decode_ldI : word 0b1010_0010_1111_0000 = some (.ldI 0x2F0) := by decide
theorem test_decode_jpV0 : word 0b1011_0011_0000_0000 = some (.jpV0 0x300) := by decide
theorem test_decode_rnd : word 0b1100_0011_0000_1111 = some (.rnd 3 0x0F) := by decide
theorem test_decode_drw : word 0b1101_0000_0001_0101 = some (.drw 0 1 5) := by decide
theorem test_decode_skp : word 0b1110_0010_1001_1110 = some (.skp 2) := by decide
theorem test_decode_sknp : word 0b1110_0010_1010_0001 = some (.sknp 2) := by decide
theorem test_decode_ldVxDT : word 0b1111_0100_0000_0111 = some (.ldVxDT 4) := by decide
theorem test_decode_ldVxK : word 0b1111_0011_0000_1010 = some (.ldVxK 3) := by decide
theorem test_decode_ldDTVx : word 0b1111_0001_0001_0101 = some (.ldDTVx 1) := by decide
theorem test_decode_ldSTVx : word 0b1111_0001_0001_1000 = some (.ldSTVx 1) := by decide
theorem test_decode_addI : word 0b1111_0010_0001_1110 = some (.addI 2) := by decide
theorem test_decode_ldF : word 0b1111_0000_0010_1001 = some (.ldF 0) := by decide
theorem test_decode_ldB : word 0b1111_0101_0011_0011 = some (.ldB 5) := by decide
theorem test_decode_storeRegs : word 0b1111_0010_0101_0101 = some (.storeRegs 2) := by decide
theorem test_decode_loadRegs : word 0b1111_0010_0110_0101 = some (.loadRegs 2) := by decide

/-- Table T10: words of no row, by the family that rejects them. -/
theorem test_decode_rejects :
    decodeWord 0x5121 = .error .family5 ∧ decodeWord 0x8128 = .error .family8 ∧ decodeWord 0x812F = .error .family8 ∧
    decodeWord 0x9128 = .error .family9 ∧ decodeWord 0xE19F = .error .familyE ∧ decodeWord 0xF1FF = .error .familyF ∧
    decode [0x12] = .error .truncated := ⟨rfl, rfl, rfl, rfl, rfl, rfl, rfl⟩

/-- The words of family 0 next to the two exact ones are 0NNN (R93). -/
theorem test_decode_next_to_cls : word 0x00E1 = some (.sys 0xE1) ∧ word 0x00EF = some (.sys 0xEF) := by decide

/-- Two bytes, the first at the lower address, and the rest handed back (R64, R90). -/
theorem test_decode_bytes : decode [0x12, 0x0A, 0x55] = .ok (.jp 0x20A, [0x55]) := rfl

theorem test_encode_bytes : encode (.drw 0 1 5) = [0xD0, 0x15] ∧ encode (.sys 0x345) = [0x03, 0x45] := by decide

theorem test_decodeTableWord : decodeTableWord 16 0x8AB4 = some (.addReg 0xA 0xB) ∧ decodeTableWord 16 0x8AB8 = none := by
  decide

/-! ### One step per instruction, with the results of the rules' examples -/

theorem test_cls : after 0x00E0 { base with fb := base.fb.toggle 3 4 } (fun t => (t.fb.pixel 3 4, t.dirty, t.pc))
    = some (false, true, 0x202) := by decide
theorem test_ret : after 0x00EE (withStack 1 (base.stack.set 0 0x204)) (fun t => (t.sp.val, t.pc))
    = some (0, 0x206) := by decide
theorem test_ret_empty : stopOf 0x00EE base = some .stackUnderflow := by decide
theorem test_sys : after 0x0345 base (fun t => (t.pc, t.sp.val)) = some (0x345, 0) := by decide
theorem test_jp : after 0x120A (base.setPc 0x20A) (fun t => t.pc) = some 0x20A := by decide
theorem test_call : after 0x2208 base (fun t => (t.stack[0], t.sp.val, t.pc)) = some (0x200, 1, 0x208) := by decide
theorem test_call_full : stopOf 0x2208 (withStack 16 base.stack) = some .stackOverflow := by decide
theorem test_seImm : after 0x3342 (base.setV 3 0x42) (fun t => t.pc) = some 0x204 := by decide
theorem test_seImm_not : after 0x3342 (base.setV 3 0x41) (fun t => t.pc) = some 0x202 := by decide
theorem test_sneImm : after 0x4342 (base.setV 3 0x41) (fun t => t.pc) = some 0x204 := by decide
theorem test_seReg : after 0x5120 ((base.setV 1 7).setV 2 7) (fun t => t.pc) = some 0x204 := by decide
theorem test_seReg_bad : stopOf 0x5121 ((base.setV 1 7).setV 2 7) = some .badOpcode := by decide
theorem test_sneReg : after 0x9120 ((base.setV 1 7).setV 2 8) (fun t => t.pc) = some 0x204 := by decide
theorem test_ldImm : after 0x6A2B base (fun t => (t.v 0xA, t.pc)) = some (0x2B, 0x202) := by decide
theorem test_addImm : after 0x7002 (base.setV 0 0xFF) (fun t => (t.v 0, t.v 15)) = some (0x01, 0x00) := by decide
theorem test_ldReg : after 0x8120 (base.setV 2 0x55) (fun t => t.v 1) = some 0x55 := by decide
theorem test_orReg : after 0x8121 ((base.setV 1 0x0F).setV 2 0xF0) (fun t => t.v 1) = some 0xFF := by decide
theorem test_andReg : after 0x8122 ((base.setV 1 0x3C).setV 2 0x0F) (fun t => t.v 1) = some 0x0C := by decide
theorem test_xorReg : after 0x8443 (base.setV 4 0x99) (fun t => t.v 4) = some 0x00 := by decide
theorem test_addReg : after 0x8014 ((base.setV 0 0xFF).setV 1 0x02) (fun t => (t.v 0, t.v 15)) = some (0x01, 1) := by
  decide
/-- X = 0xF: the flag is the last write (R146). -/
theorem test_addReg_vf : after 0x8F14 ((base.setV 15 0xFF).setV 1 0x02) (fun t => t.v 15) = some 1 := by decide
theorem test_subReg : after 0x8015 ((base.setV 0 0x01).setV 1 0x02) (fun t => (t.v 0, t.v 15)) = some (0xFF, 0) := by
  decide
/-- Equal operands: no borrow (R150). -/
theorem test_subReg_equal : after 0x8015 ((base.setV 0 0x02).setV 1 0x02) (fun t => (t.v 0, t.v 15)) = some (0, 1) := by
  decide
theorem test_shr : after 0x8506 ((base.setV 5 0x81).setV 15 0x07) (fun t => (t.v 5, t.v 15)) = some (0x40, 0x07) := by
  decide
theorem test_subn : after 0x8017 ((base.setV 0 0x05).setV 1 0x03) (fun t => (t.v 0, t.v 15)) = some (0xFE, 0) := by
  decide
theorem test_shl : after 0x850E ((base.setV 5 0x81).setV 15 0x07) (fun t => (t.v 5, t.v 15)) = some (0x02, 0x07) := by
  decide
theorem test_ldI : after 0xA2F0 base (fun t => (t.I, t.pc)) = some (0x02F0, 0x202) := by decide
theorem test_jpV0 : after 0xB300 (base.setV 0 0x04) (fun t => t.pc) = some 0x304 := by decide
theorem test_jpV0_top : after 0xBFFF (base.setV 0 0xFF) (fun t => t.pc) = some 0x10FE := by decide
/-- The example's draw, `r = 0xA7` (R162). -/
theorem test_rnd : (match rndWith 0xA7 3 0x0F base with
    | .success t => some (t.v 3, t.pc)
    | .blocking => none
    | .invalid _ => none) = some (0x07, 0x202) := by decide
theorem test_drw : after 0xD011 base (fun t => (t.fb.pixel 0 0, t.fb.pixel 3 0, t.fb.pixel 4 0, t.v 15, t.dirty))
    = some (true, true, false, 0, true) := by decide
/-- A pixel that was 1 goes to 0 and is a collision (R173). -/
theorem test_drw_collision : after 0xD011 { base with fb := base.fb.toggle 3 0 }
    (fun t => (t.fb.pixel 0 0, t.fb.pixel 3 0, t.v 15)) = some (true, false, 1) := by decide
theorem test_skp : after 0xE29E ((withKey 5).setV 2 0x5) (fun t => t.pc) = some 0x204 := by decide
theorem test_skp_range : stopOf 0xE29E (base.setV 2 0x10) = some .keyRange := by decide
theorem test_sknp : after 0xE2A1 (base.setV 2 0x5) (fun t => t.pc) = some 0x204 := by decide
theorem test_sknp_range : stopOf 0xE2A1 (base.setV 2 0x10) = some .keyRange := by decide
theorem test_ldVxDT : after 0xF407 (base.setDt 0x3C) (fun t => t.v 4) = some 0x3C := by decide
/-- Two keys pressed: the highest index wins (R191). -/
theorem test_ldVxK : after 0xF30A { (withKey 2) with key := (withKey 2).key.set 0xC true, pc := 0x210 }
    (fun t => (t.v 3, t.pc)) = some (0x0C, 0x212) := by decide
/-- No key: Blocking, the state unchanged and nothing counted (R191, R220). -/
theorem test_ldVxK_blocks : ticked ((base.setPc 0x210).withFetchWord 16 0xF30A)
    (fun t => (t.report, t.state.pc, t.state.cc)) = some (.cont, 0x210, 0) := by decide
theorem test_ldDTVx : after 0xF115 (base.setV 1 5) (fun t => t.dt) = some 5 := by decide
/-- The tick of the same step acts on the new value (the example of R192). -/
theorem test_ldDTVx_tick : ticked (((base.setV 1 5).setCc 9).withFetchWord 16 0xF115)
    (fun t => (t.state.dt, t.state.cc)) = some (4, 0) := by decide
theorem test_ldSTVx : after 0xF118 (base.setV 1 3) (fun t => t.st) = some 3 := by decide
theorem test_addI : after 0xF21E ((base.setI 0x300).setV 2 0x10) (fun t => t.I) = some 0x310 := by decide
theorem test_ldF : after 0xF029 (base.setV 0 0x0A) (fun t => t.I) = some 0x032 := by decide
theorem test_ldF_range : stopOf 0xF029 (base.setV 0 0x10) = some .fontRange := by decide
theorem test_ldB : after 0xF533 ((base.setI 0x300).setV 5 123)
    (fun t => (t.byte 0x300, t.byte 0x301, t.byte 0x302, t.I)) = some (1, 2, 3, 0x300) := by decide
theorem test_ldB_range : stopOf 0xF533 (base.setI 0xFFE) = some .memRange := by decide
theorem test_storeRegs : after 0xF255 ((((base.setV 0 0x11).setV 1 0x22).setV 2 0x33).setI 0x400)
    (fun t => (t.byte 0x400, t.byte 0x401, t.byte 0x402, t.byte 0x403)) = some (0x11, 0x22, 0x33, 0) := by decide
theorem test_storeRegs_range : stopOf 0xF155 (base.setI 0xFFF) = some .memRange := by decide
theorem test_loadRegs : after 0xF265 ((base.setBytes 0x400 [0x11, 0x22, 0x33, 0x44]).setI 0x400)
    (fun t => (t.v 0, t.v 1, t.v 2, t.v 3)) = some (0x11, 0x22, 0x33, 0) := by decide
theorem test_loadRegs_range : stopOf 0xF165 (base.setI 0xFFF) = some .memRange := by decide

/-! ### The scheduler and the host -/

/-- Reset memory is all 0 at 0x200, and 0x0000 is a jump to 0 (spec/95_test_vectors.md, the vector of word 0x0000). -/
theorem test_tick_zero_word : ticked base (fun t => (t.report, t.state.pc, t.state.cc)) = some (.cont, 0, 1) := by decide
theorem test_tick_not_loaded : ticked State.reset (fun t => (t.report, t.state.pc)) = some (.notLoaded, 0x200) := by
  decide
/-- The tenth success with st = 1: one beep, st 0 (R222). -/
theorem test_tick_beep : ticked ((base.setCc 9).setSt 1) (fun t => (t.beep, t.state.st, t.state.cc))
    = some (true, 0, 0) := by decide
theorem test_tick_invalid : ticked (base.withFetchWord 16 0x5121) (fun t => (t.report, t.state.halted))
    = some (.stop .badOpcode 0x200 (some 0x5121), true) := by decide
theorem test_font_glyph : (base.byte 0x000, base.byte 0x04F, base.byte 0x050) = (0xF0, 0x80, 0x00) := by decide
theorem test_load : (hostLoad State.reset [0x12, 0x0A]).map (fun t => (t.byte 0x200, t.byte 0x201, t.loaded))
    = some (0x12, 0x0A, true) := by decide
theorem test_fault_codes : [Fault.badOpcode, .stackUnderflow, .stackOverflow, .fontRange, .keyRange, .memRange,
    .fetchRange, .drawOffscreen].map Fault.code = [1, 2, 3, 4, 5, 6, 7, 8] := by decide

/-- The memory form refuses an entry that equals what an unlisted address reads as, one out of order, one twice, one
outside. -/
theorem test_memory_wf : Memory.wf [(0x300, 0)] = false ∧ Memory.wf [(0x301, 1), (0x300, 1)] = false ∧
    Memory.wf [(0x300, 1), (0x300, 2)] = false ∧ Memory.wf [(0x1000, 1)] = false ∧
    Memory.wf [(0x300, 1), (0xFFF, 1)] = true := by decide

/-- Writing 0x00 takes the entry out again: equal memories are equal. -/
theorem test_memory_write_back : (Memory.zero.write 0x300 1).write 0x300 0 = Memory.zero := by decide

/-! ### Witnesses: for every obligation with hypotheses, and each of its clauses, values that meet them together -/

/-- ResetIsTableT13: the first and the last address after the font, and the corner pixel. -/
theorem witness_ResetIsTableT13 :
    (0x050 ≤ 0x050 ∧ 0x050 ≤ 0xFFF) ∧ (0x050 ≤ 0xFFF ∧ 0xFFF ≤ 0xFFF) ∧ (63 < 64 ∧ 31 < 32) := by
  decide

/-- JumpsSetPcToNNN: words of the two rows, the two excluded words among their neighbours, and the example's loop. -/
theorem witness_JumpsSetPcToNNN : (0x00E1 : Word) &&& 0xF000 = 0x0000 ∧ (0x00E1 : Word) ∉ [(0x00E0 : Word), 0x00EE] ∧
    (0x1FFF : Word) &&& 0xF000 = 0x1000 ∧
    ((base.setPc 0x20A).pc.toNat ≤ 0xFFF ∧ (0x120A : Word).toNat = 0x1000 + (base.setPc 0x20A).pc.toNat) ∧
    ((base.setPc 0xFFF).pc.toNat ≤ 0xFFF ∧ (0x1FFF : Word).toNat = 0x1000 + (base.setPc 0xFFF).pc.toNat) := by decide

/-- CallPushesItsOwnAddress: full, empty, and one entry free. -/
theorem witness_CallPushesItsOwnAddress : (withStack 16 base.stack).sp.val = 16 ∧ base.sp.val < 16 ∧
    (withStack 15 base.stack).sp.val < 16 ∧ (0x2208 : Word) &&& 0xF000 = 0x2000 ∧ base.sp.val = 0 := by decide

/-- RetGoesPastTheCall: empty, one entry, and full; the last address of a CALL, and those whose return no fetch can use;
a CALL that succeeds. -/
theorem witness_RetGoesPastTheCall : base.sp.val = 0 ∧ (withStack 1 base.stack).sp.val = (0 : Fin 16).val + 1 ∧
    (withStack 16 base.stack).sp.val = (15 : Fin 16).val + 1 ∧ (base.stack.set 0 0xFFE)[0].toNat ≤ 0xFFE ∧
    after 0x00EE (withStack 1 (base.stack.set 0 0xFFE)) (fun t => t.pc.toNat) = some 0x1000 ∧
    after 0x00EE (withStack 1 (base.stack.set 0 0xFFD)) (fun t => t.pc.toNat) = some 0xFFF ∧
    after 0x2208 base (fun t => t.pc.toNat) = some 0x208 := by decide

/-- NestedCallsReturnInReverse: exactly as many calls as there is room for, and one more. -/
theorem witness_NestedCallsReturnInReverse :
    (withStack 14 base.stack).sp.val + [((0x200 : Word), (0x300 : Addr)), (0x300, 0x400)].length ≤ 16 ∧
    16 < (withStack 15 base.stack).sp.val + [((0x200 : Word), (0x300 : Addr)), (0x300, 0x400)].length := by decide

/-- ClsBlanksTheScreen: the corner pixel. -/
theorem witness_ClsBlanksTheScreen : 63 < 64 ∧ 31 < 32 := by decide

/-- ByteSkipsCompareVxWithNN: words of the two rows. -/
theorem witness_ByteSkipsCompareVxWithNN : (0x3342 : Word) &&& 0xF000 = 0x3000 ∧ (0x4342 : Word) &&& 0xF000 = 0x4000 := by
  decide

/-- RegisterSkipsCompareVxWithVy: words of the two rows, and rejected words of both families. -/
theorem witness_RegisterSkipsCompareVxWithVy :
    (0x5120 : Word) &&& 0xF00F = 0x5000 ∧ (0x9120 : Word) &&& 0xF00F = 0x9000 ∧
    (fieldF 0x5121 = 5 ∧ fieldN 0x5121 ≠ 0) ∧ (fieldF 0x912F = 9 ∧ fieldN 0x912F ≠ 0) := by decide

/-- LoadsWriteVxOnly, AddByteWrapsWithoutFlag, LoadIndexSetsI, DelayTimerIsRead: words of their rows. -/
theorem witness_rows_6_7_A_F : (0x6A2B : Word) &&& 0xF000 = 0x6000 ∧ (0x8120 : Word) &&& 0xF00F = 0x8000 ∧
    (0x7002 : Word) &&& 0xF000 = 0x7000 ∧ (0xA2F0 : Word) &&& 0xF000 = 0xA000 ∧
    (0xF407 : Word) &&& 0xF0FF = 0xF007 := by decide

/-- BitwiseOpsWorkBitByBit: words of the three rows, and XOR of a register with itself. -/
theorem witness_BitwiseOpsWorkBitByBit : (0x8121 : Word) &&& 0xF00F = 0x8001 ∧ (0x8122 : Word) &&& 0xF00F = 0x8002 ∧
    (0x8443 : Word) &&& 0xF00F = 0x8003 ∧ fieldX 0x8443 = fieldY 0x8443 := by decide

/-- AddRegisterSetsCarry, SubtractionsSetNotBorrow: a destination other than VF. -/
theorem witness_destination_not_vf : (14 : Reg) ≠ Reg.vf ∧ (0 : Reg) ≠ Reg.vf := by decide

/-- RandomByteIsMasked: a mask with a clear bit. -/
theorem witness_RandomByteIsMasked : (0x0F : Byte).getLsbD 7 = false := by decide

/-- DrawXorsTheSprite: no rows at any `I`, the last byte of memory, and a box that just fits under `invalid`. -/
theorem witness_DrawXorsTheSprite :
    ((base.setI 0xFFFF).I.toNat = 0xFFFF ∧ (0 : RowCount).val = 0 ∧ base.cfg.drawOffscreen = .clip) ∧
    (base.setI 0xFFF).I.toNat + (1 : RowCount).val - 1 ≤ 0xFFF ∧
    (strict.I.toNat + (5 : RowCount).val - 1 ≤ 0xFFF ∧ strict.cfg.drawOffscreen = .invalid ∧
      ((strict.setV 0 56).setV 1 27).v 0 = 56 ∧
      (((strict.setV 0 56).setV 1 27).v 0).toNat + 7 ≤ 63 ∧
      (((strict.setV 0 56).setV 1 27).v 1).toNat + (5 : RowCount).val - 1 ≤ 31) := by decide

/-- DrawStopsOutsideItsRanges: one byte too far, one column too far, one row too far. -/
theorem witness_DrawStopsOutsideItsRanges :
    (0 < (2 : RowCount).val ∧ 0xFFF < (base.setI 0xFFF).I.toNat + (2 : RowCount).val - 1) ∧
    (strict.I.toNat + (5 : RowCount).val - 1 ≤ 0xFFF ∧ strict.cfg.drawOffscreen = .invalid ∧
      63 < ((strict.setV 0 57).v 0).toNat + 7 ∧ 31 < ((strict.setV 1 28).v 1).toNat + (5 : RowCount).val - 1) := by decide

/-- DrawingTwiceRestoresTheScreen: a draw that answers a next state, its coordinates not in VF. -/
theorem witness_DrawingTwiceRestoresTheScreen :
    (0 : Reg) ≠ Reg.vf ∧ (1 : Reg) ≠ Reg.vf ∧ ∃ t, exec (.drw 0 1 1) base = .next t := by
  exact ⟨by decide, by decide, _, rfl⟩

/-- KeySkipsTestTheKeyLevel: the last key, and the first value that names none. -/
theorem witness_KeySkipsTestTheKeyLevel :
    ((base.setV 2 15).v 2).toNat = (15 : Reg).val ∧ 15 < ((base.setV 2 16).v 2).toNat := by
  decide

/-- TimersAreSet: the step that completes a period. -/
theorem witness_TimersAreSet : (base.setCc 9).cfg.cyclesPerTick ≤ (base.setCc 9).cc + 1 := by decide

/-- KeyWaitTakesTheHighestKey: one key pressed and none above; none pressed, in a running machine at FX0A, with and
without TICK_ON_BLOCKING. -/
theorem witness_KeyWaitTakesTheHighestKey :
    ((withKey 15).key[(15 : Reg).val] = true ∧ ∀ j : Reg, 15 < j → (withKey 15).key[j.val] = false) ∧
    ((withKey 2).key[(2 : Reg).val] = true ∧ ∀ j : Reg, 2 < j → (withKey 2).key[j.val] = false) ∧
    (∀ k : Reg, (base.withFetchWord 16 0xF30A).key[k.val] = false) ∧
    ((base.withFetchWord 16 0xF30A).loaded = true ∧ (base.withFetchWord 16 0xF30A).halted = false) ∧
    (base.withFetchWord 16 0xF30A).fetch = some 0xF30A ∧ word 0xF30A = some (.ldVxK 3) ∧
    (base.withFetchWord 16 0xF30A).cfg.tickOnBlocking = false ∧
    ((ticking.withFetchWord 16 0xF30A).fetch = some 0xF30A ∧
      (ticking.withFetchWord 16 0xF30A).cfg.tickOnBlocking = true) := by decide

/-- GlyphAddressIsFiveTimesVx: the last digit, and the first value above. -/
theorem witness_GlyphAddressIsFiveTimesVx : ((base.setV 0 15).v 0).toNat ≤ 15 ∧ 15 < ((base.setV 0 16).v 0).toNat := by
  decide

/-- BcdStoresThreeDigits: the last place that fits, and the first that does not. -/
theorem witness_BcdStoresThreeDigits : (base.setI 0xFFD).I.toNat + 2 ≤ 0xFFF ∧
    0xFFF < (base.setI 0xFFE).I.toNat + 2 := by decide

/-- RegistersAreStored, RegistersAreLoaded: the last place that fits, and the first that does not. -/
theorem witness_RegistersAreStored_RegistersAreLoaded :
    (base.setI 0xFF0).I.toNat + (15 : Reg).val ≤ 0xFFF ∧
    0xFFF < (base.setI 0xFF1).I.toNat + (15 : Reg).val ∧ ((0 : Reg) ≤ 15 ∧ (14 : Reg) < 15) := by decide

/-- StoredRegistersLoadBack: a store that answers a next state, and that state itself for the state between. -/
theorem witness_StoredRegistersLoadBack :
    ∃ t, exec (.storeRegs 2) (base.setI 0x400) = .next t ∧ Frame [.V, .pc] t t := by
  refine ⟨_, rfl, fun p _ => ?_⟩
  cases p <;> first | exact rfl | exact fun _ => rfl

/-- FetchIsBigEndian: the last address a fetch can use and the first it can't. -/
theorem witness_FetchIsBigEndian : (base.setPc 0xFFE).pc.toNat ≤ 0xFFE ∧ 0xFFE < (base.setPc 0xFFF).pc.toNat := by decide

/-- StepRunsTheDecodedInstruction: a running machine at the last address a fetch can use, whose bytes there decode. -/
theorem witness_StepRunsTheDecodedInstruction : (base.setPc 0xFFE).Running ∧ (base.setPc 0xFFE).pc.toNat ≤ 0xFFE ∧
    decode [(base.setPc 0xFFE).byte 0xFFE, (base.setPc 0xFFE).byte 0xFFF] = .ok (.sys 0x000, []) :=
  ⟨⟨rfl, rfl⟩, by decide, rfl⟩

/-- Its clauses: an instruction that stops, one that succeeds, and one that blocks. -/
theorem witness_StepRunsTheDecodedInstruction_clauses :
    exec .ret base = .fault .stackUnderflow ∧
    ((∃ t, exec (.ldImm 0 1) base = .next t) ∧ ¬ (Blocks (.ldImm 0 1) base ∧ base.cfg.tickOnBlocking = false)) ∧
    (Blocks (.ldVxK 3) base ∧ base.cfg.tickOnBlocking = false) := by
  refine ⟨rfl, ⟨⟨_, rfl⟩, fun h => ?_⟩, ⟨⟨3, rfl⟩, by decide⟩, rfl⟩
  obtain ⟨x, hx⟩ := h.1.1
  exact nomatch hx

/-- StepWithoutAnInstruction: a word of table T10 under `pc`, a `pc` too high, a halted machine, an empty one. -/
theorem witness_StepWithoutAnInstruction :
    ((base.withFetchWord 16 0x5121).loaded = true ∧ (base.withFetchWord 16 0x5121).halted = false ∧
      (base.withFetchWord 16 0x5121).fetch = some 0x5121 ∧ word 0x5121 = none) ∧
    (base.loaded = true ∧ base.halted = false ∧ 0xFFE < (base.setPc 0xFFF).pc.toNat) ∧
    ({ base with halted := true } : State).halted = true ∧
    (State.reset.halted = false ∧ State.reset.loaded = false) := by decide

/-- OutcomesAreTagged: an instruction of each outcome, the first two with the same next state. -/
theorem witness_OutcomesAreTagged : outcome (.jp 0x200) base = .success base ∧ outcome (.ldVxK 3) base = .blocking ∧
    outcome .ret base = .invalid .stackUnderflow := ⟨rfl, rfl, rfl⟩

/-- OnlyRndReadsTheDraws: instructions other than RND, one of each outcome. -/
theorem witness_OnlyRndReadsTheDraws : (∀ x nn, Instr.jp 0x200 ≠ .rnd x nn) ∧ (∀ x nn, Instr.ldVxK 3 ≠ .rnd x nn) ∧
    (∀ x nn, Instr.ret ≠ .rnd x nn) ∧ outcome (.jp 0x200) base = .success base ∧
    outcome (.ldVxK 3) base = .blocking ∧ outcome .ret base = .invalid .stackUnderflow :=
  ⟨nofun, nofun, nofun, rfl, rfl, rfl⟩

/-- RunsKeepTheTimerCadence: one Success at the end of a period, with its beep, and a wait before it. -/
theorem witness_RunsKeepTheTimerCadence : (((base.setCc 9).setSt 1).cc < ((base.setCc 9).setSt 1).cfg.cyclesPerTick) ∧
    (∃ t, SuccessRun ((base.setCc 9).setSt 1) 1 (0 + 1) t) ∧
    (∃ t, SuccessRun (base.withFetchWord 16 0xF30A) 0 (0 + 0) t) := by
  exact ⟨by decide,
    ⟨_, SuccessRun.success (beep := true) (w := 0) (i := .sys 0) .start rfl rfl rfl rfl rfl⟩,
    ⟨_, SuccessRun.wait (beep := false) (w := 0xF30A) (i := .ldVxK 3) .start (by decide) rfl rfl rfl rfl⟩⟩

/-- InvalidIsPrecise: a tick that stops in the fetch, and one that stops in the instruction. -/
theorem witness_InvalidIsPrecise :
    (∃ t, tick (base.setPc 0xFFF) = .next ⟨.stop .fetchRange 0xFFF none, t, false⟩) ∧
    (∃ t, tick (base.withFetchWord 16 0x00EE) = .next ⟨.stop .stackUnderflow 0x200 (some 0x00EE), t, false⟩) :=
  ⟨⟨_, rfl⟩, ⟨_, rfl⟩⟩

/-- TimerTickEffects, TimerCadence: inside a period, and on its last step. -/
theorem witness_TimerTickEffects_TimerCadence : (base.setCc 8).cc + 1 < (base.setCc 8).cfg.cyclesPerTick ∧
    (base.setCc 9).cfg.cyclesPerTick ≤ (base.setCc 9).cc + 1 ∧ (base.setCc 9).cc < (base.setCc 9).cfg.cyclesPerTick := by
  decide

/-- InstructionsWriteOnlyTheirParts: an instruction that answers a next state. -/
theorem witness_InstructionsWriteOnlyTheirParts : ∃ t, exec (.addReg 1 2) base = .next t := ⟨_, rfl⟩

/-- StepsLeaveTheHostsStateAlone: a step, of a running machine and of a halted one. -/
theorem witness_StepsLeaveTheHostsStateAlone : (∃ t, step base = .next t) ∧
    ({ base with halted := true } : State).halted = true := ⟨⟨_, rfl⟩, rfl⟩

/-- NoInstructionReadsDirtyStCc: an instruction that answers a next state and one that stops. -/
theorem witness_NoInstructionReadsDirtyStCc : (∃ t, exec (.ldSTVx 1) base = .next t) ∧
    exec .ret base = .fault .stackUnderflow := ⟨⟨_, rfl⟩, rfl⟩

/-- StaleStackEntriesAreUnobservable: a stack that differs only at and above `sp`, and a tick from it. -/
theorem witness_StaleStackEntriesAreUnobservable :
    (∀ j : Fin 16, j.val < (withStack 1 base.stack).sp.val → (base.stack.set 1 0xABC)[j.val] = base.stack[j.val]) ∧
    ∃ s' r b, tick (withStack 1 base.stack) = .next ⟨r, s', b⟩ := ⟨by decide, _, _, _, rfl⟩

/-- StepKeepsTheInvariant, HostOperationsKeepTheInvariant: a running machine that meets the invariant and steps. -/
theorem witness_invariant : base.Inv ∧ ∃ t, step base = .next t :=
  ⟨⟨by decide, by decide, by decide, by decide⟩, _, rfl⟩

/-- ResetMeetsTheInvariant: a configuration with the smallest N. -/
theorem witness_ResetMeetsTheInvariant : 1 ≤ ({ Config.default with cyclesPerTick := 1 } : Config).cyclesPerTick := by
  decide

/-- ReachableStatesAreSound: a state that meets the invariant and returns; a state that is reached by a reset, a load and a step, and one whose stack holds an entry. -/
theorem witness_ReachableStatesAreSound :
    ((withStack 1 (base.stack.set 0 0xFFE)).Inv ∧ ∃ t, exec .ret (withStack 1 (base.stack.set 0 0xFFE)) = .next t) ∧
    Reachable (HostOp.apply State.reset (.load [0x22, 0x02])) ∧
    ∃ t u, step (HostOp.apply State.reset (.load [0x22, 0x02])) = .next t ∧ Reachable t ∧ exec .ret t = .next u := by
  have h : Reachable (HostOp.apply State.reset (.load [0x22, 0x02])) :=
    .host (.reset Config.default (by decide)) _
  exact ⟨⟨⟨by decide, by decide, by decide, by decide⟩, _, rfl⟩, h, _, _, rfl, .step h rfl, rfl⟩

/-- DecodeInvertsEncode, EncodeInvertsDecode: a well-formed instruction, and a word that decodes. -/
theorem witness_DecodeInvertsEncode_EncodeInvertsDecode :
    (Instr.sys 0xFFF).wf = true ∧ decodeWord 0x8FF6 = .ok (.shr 15 15) :=
  ⟨rfl, rfl⟩

/-- RejectedWordsAreTableT10: a rejected word of each of the five families. -/
theorem witness_RejectedWordsAreTableT10 : word 0x5001 = none ∧ word 0x8008 = none ∧ word 0x9001 = none ∧
    word 0xE000 = none ∧ word 0xF000 = none := by decide

/-- LoadCopiesTheImage: a loaded machine, the empty image, one byte too many, and the smallest and the largest image. -/
theorem witness_LoadCopiesTheImage : base.loaded = true ∧ ([] : List Byte).length = 0 ∧
    3584 < (List.replicate 3585 (1 : Byte)).length ∧
    (State.reset.loaded = false ∧ 0 < [(1 : Byte)].length ∧
      [(1 : Byte)].length ≤ 3584) ∧ (List.replicate 3584 (1 : Byte)).length ≤ 3584 := by
  refine ⟨rfl, rfl, ?_, by decide, ?_⟩ <;> rw [List.length_replicate]
  decide

/-- HostOperationsTouchTheirStateOnly: a key other than the one set. -/
theorem witness_HostOperationsTouchTheirStateOnly : (0 : Reg) ≠ 15 := by decide

/-- PlacedWordIsFetched: the largest word, at the last address a fetch can use. -/
theorem witness_PlacedWordIsFetched : 0xFFFF < 2 ^ 16 ∧
    (base.setPc 0xFFE).pc.toNat ≤ 0xFFE := by decide

end Sys2Proof.Tests
end

section
/-! PROOFS. Families 0, 1 and 2 (spec/40_flow.md): a jump moves `pc` and nothing else, CALL and RET move the top of the
stack by one entry. -/

namespace Sys2Proof.Machine

/-! ### Decoding a row that its family alone makes -/

/-- A row of the mask 0xF000 decodes as every word of its family does. -/
theorem rowDecodes_of_family (f : Nat) (hf : f < 16) (build : Word → Instr)
    (h : ∀ w : Word, (fieldF w).val = f → decodeWord w = .ok (build w)) :
    RowDecodes 0xF000 (BitVec.ofNat 16 (f * 4096)) build :=
  fun w hw => h w (family_of_mask f w hf hw)

theorem decodeWord_family0 (w : Word) (h : (fieldF w).val = 0) : decodeWord w = .ok (decodeFamily0 w) := by
  simp [decodeWord, h]

theorem decodeWord_family1 (w : Word) (h : (fieldF w).val = 1) : decodeWord w = .ok (.jp (fieldNNN w)) := by
  simp [decodeWord, h]

theorem decodeWord_family2 (w : Word) (h : (fieldF w).val = 2) : decodeWord w = .ok (.call (fieldNNN w)) := by
  simp [decodeWord, h]

/-- What a word that decodes executes. -/
theorem execute_of_decode {w : Word} {i : Instr} (s : State) (h : decodeWord w = .ok i) :
    execute w s = outcome i s := by
  simp [execute, h]

/-! ### Jumps -/

/-- Moving `pc` leaves every other part alone. -/
theorem State.setPc_frame (s : State) (w : Word) : Frame [.pc] s (s.setPc w) := by
  intro p hp
  cases p <;> simp_all [Part.same]

/-- The word 0x1000 + `a` has `a` itself as its target NNN. -/
theorem addrWord_fieldNNN (w a : Word) (ha : a.toNat ≤ 0xFFF) (hw : w.toNat = 0x1000 + a.toNat) :
    addrWord (fieldNNN w) = a := by
  apply BitVec.eq_of_toNat_eq
  rw [toNat_addrWord, fieldNNN, BitVec.toNat_setWidth, hw]
  omega

/-- A jump to its own address leaves the state as it is. -/
theorem execute_self_jump (w : Word) (s : State) (hs : s.pc.toNat ≤ 0xFFF) (hw : w.toNat = 0x1000 + s.pc.toNat) :
    execute w s = .success s := by
  have hf : (fieldF w).val = 1 := by simp only [fieldF]; omega
  calc execute w s = .success (s.setPc (addrWord (fieldNNN w))) := execute_of_decode s (decodeWord_family1 w hf)
    _ = .success s := by rw [addrWord_fieldNNN w s.pc hs hw]; rfl

/-- Settles O2: each instruction's one next state is `s.setPc`, and a self-jump sets `pc` to what it was. -/
theorem jumpsSetPcToNNN : Obligations.JumpsSetPcToNNN := by
  refine ⟨fun w hw hne => ?_, rowDecodes_of_family 1 (by decide) _ decodeWord_family1, fun _ => rfl,
    execute_self_jump, fun n s => ⟨⟨_, exec_sys s n, ?_⟩, ⟨_, exec_jp s n, ?_⟩⟩⟩
  · simp only [List.mem_cons, List.not_mem_nil, or_false, not_or] at hne
    obtain ⟨hcls, hret⟩ := hne
    rw [decodeWord_family0 w (family_of_mask 0 w (by decide) hw), decodeFamily0, if_neg hcls, if_neg hret]
  all_goals exact ⟨toNat_addrWord n, s.setPc_frame _⟩

/-! ### CALL -/

theorem exec_call_full (n : Addr) (s : State) (h : s.sp.val = 16) : exec (.call n) s = .fault .stackOverflow := by
  rcases execCall_cases s n with ⟨-, he⟩ | ⟨hlt, -⟩
  · exact he
  · omega

theorem exec_call_room (n : Addr) (s : State) (h : s.sp.val < 16) :
    exec (.call n) s =
      .next { s with stack := s.stack.set s.sp.val s.pc, sp := ⟨s.sp.val + 1, by omega⟩, pc := addrWord n } := by
  rcases execCall_cases s n with ⟨hfull, -⟩ | ⟨_, he⟩
  · omega
  · exact he

/-- A list of nested calls succeeds exactly when the stack has room for all of them, wherever it starts. -/
theorem nestedCalls_isSome_iff (sites : List (Word × Addr)) (s : State) :
    (nestedCalls sites s).isSome = true ↔ s.sp.val + sites.length ≤ 16 := by
  induction sites generalizing s with
  | nil => simp only [nestedCalls, List.length_nil, Option.isSome_some, true_iff]; omega
  | cons c rest ih =>
    obtain ⟨site, target⟩ := c
    by_cases h : s.sp.val < 16
    · rw [nestedCalls, exec_call_room target (s.setPc site) h]
      simp only [ih, State.setPc_sp, List.length_cons]
      omega
    · rw [nestedCalls, exec_call_full target (s.setPc site) (by rw [State.setPc_sp]; omega)]
      simp only [Option.isSome_none, Bool.false_eq_true, List.length_cons, false_iff]
      omega

/-- Settles O3: the two cases of a push, and an induction over the nested calls for the room they need. -/
theorem callPushesItsOwnAddress : Obligations.CallPushesItsOwnAddress := by
  refine ⟨rowDecodes_of_family 2 (by decide) _ decodeWord_family2, fun n s => ⟨exec_call_full n s, fun h => ?_, ?_⟩⟩
  · refine ⟨_, exec_call_room n s h, ?top, fun j hj => ?others, rfl, toNat_addrWord n, fun p hp => ?frame⟩
    case top => exact Vector.getElem_set_self h
    case others => exact Vector.getElem_set_ne h j.isLt hj.symm
    case frame => cases p <;> simp_all [Part.same, State.v, State.byte]
  · intro sites h0
    rw [nestedCalls_isSome_iff, h0, Nat.zero_add]

/-! ### RET -/

theorem exec_ret_empty (s : State) (h : s.sp.val = 0) : exec .ret s = .fault .stackUnderflow := by
  rcases execRet_cases s with ⟨-, he⟩ | ⟨hpos, -⟩
  · exact he
  · omega

theorem exec_ret_pop (s : State) (j : Fin 16) (h : s.sp.val = j.val + 1) :
    exec .ret s = .next { s with sp := j.castSucc, pc := s.stack[j.val] + 2 } := by
  rcases execRet_cases s with ⟨hzero, -⟩ | ⟨_, he⟩
  · omega
  · have hj : s.sp.val - 1 = j.val := by omega
    simp only [hj] at he
    exact he

/-- A RET right after a CALL that succeeded goes two past that CALL, with `sp` as it was before. -/
theorem ret_after_call (n : Addr) (s t : State) (h : exec (.call n) s = .next t) :
    Completes .ret t fun u => u.pc = s.pc + 2 ∧ u.sp = s.sp := by
  rcases execCall_cases s n with ⟨-, he⟩ | ⟨hlt, he⟩
  · exact nomatch he.symm.trans h
  · obtain rfl := Host.Outcome.next.inj (he.symm.trans h)
    refine ⟨_, exec_ret_pop _ ⟨s.sp.val, hlt⟩ rfl, ?_, rfl⟩
    exact congrArg (· + 2) (Vector.getElem_set_self hlt)

/-- Settles O4: the two cases of a pop, and the entry a CALL left on top. -/
theorem retGoesPastTheCall : Obligations.RetGoesPastTheCall := by
  refine ⟨rfl, fun s => ⟨exec_ret_empty s, fun j hj => ?_, fun n t => ret_after_call n s t⟩⟩
  have hpc : (s.stack[j.val] + 2).toNat = (s.stack[j.val].toNat + 2) % 2 ^ 16 := BitVec.toNat_add _ _
  refine ⟨_, exec_ret_pop s j hj, hpc, rfl, fun p hp => ?frame, fun hle => ?bound, fun hend => ?fetch⟩
  case frame => cases p <;> simp_all [Part.same, State.v, State.byte]
  case bound => exact hpc.trans_le (by omega)
  case fetch => exact (State.fetch_none _).mpr (by omega)

end Sys2Proof.Machine
end

section
/-! PROOFS. Families 3, 4, 5 and 9 (spec/41_skip.md): a skip compares two bytes and moves `pc` by 4 or by 2, nothing
else; in families 5 and 9 the low nibble must be 0. -/

namespace Sys2Proof.Machine

/-! ### Decoding the rows, and the words no row has -/

/-- A row of the mask 0xF00F decodes as every word of its family with its low nibble does. -/
theorem rowDecodes_of_family_nibble (f m : Nat) (hf : f < 16) (hm : m < 16) (build : Word → Instr)
    (h : ∀ w : Word, (fieldF w).val = f → (fieldN w).val = m → decodeWord w = .ok (build w)) :
    RowDecodes 0xF00F (BitVec.ofNat 16 (f * 4096 + m)) build := by
  intro w hw
  obtain ⟨hF, hN⟩ := fields_of_mask_XYN f w m hf hm hw
  exact h w hF hN

theorem decodeWord_family3 (w : Word) (h : (fieldF w).val = 3) :
    decodeWord w = .ok (.seImm (fieldX w) (fieldNN w)) := by
  simp [decodeWord, h]

theorem decodeWord_family4 (w : Word) (h : (fieldF w).val = 4) :
    decodeWord w = .ok (.sneImm (fieldX w) (fieldNN w)) := by
  simp [decodeWord, h]

theorem decodeWord_family5 (w : Word) (h : (fieldF w).val = 5) : decodeWord w = decodeFamily5 w := by
  simp [decodeWord, h]

theorem decodeWord_family9 (w : Word) (h : (fieldF w).val = 9) : decodeWord w = decodeFamily9 w := by
  simp [decodeWord, h]

theorem decodeWord_seReg (w : Word) (hF : (fieldF w).val = 5) (hN : (fieldN w).val = 0) :
    decodeWord w = .ok (.seReg (fieldX w) (fieldY w)) :=
  (decodeWord_family5 w hF).trans (if_pos (Fin.ext hN))

theorem decodeWord_sneReg (w : Word) (hF : (fieldF w).val = 9) (hN : (fieldN w).val = 0) :
    decodeWord w = .ok (.sneReg (fieldX w) (fieldY w)) :=
  (decodeWord_family9 w hF).trans (if_pos (Fin.ext hN))

/-- What a word that is rejected executes (R94). -/
theorem execute_of_reject {w : Word} {r : Reject} (s : State) (h : decodeWord w = .error r) :
    execute w s = .invalid .badOpcode := by
  simp [execute, h, raise]

/-- Families 5 and 9 have no row with a low nibble other than 0. -/
theorem execute_skip_badOpcode (w : Word) (s : State) (hF : fieldF w = 5 ∨ fieldF w = 9) (hN : fieldN w ≠ 0) :
    execute w s = .invalid .badOpcode := by
  rcases hF with h5 | h9
  · exact execute_of_reject s ((decodeWord_family5 w (congrArg Fin.val h5)).trans (if_neg hN))
  · exact execute_of_reject s ((decodeWord_family9 w (congrArg Fin.val h9)).trans (if_neg hN))

/-! ### The skip -/

/-- An instruction whose one write is `pc` completes, and its frame is everything but `pc`. -/
theorem completes_of_setPc {i : Instr} {s : State} {p q : Word} (he : exec i s = .next (s.setPc p)) (hpq : p = q) :
    Completes i s fun t => t.pc = q ∧ Frame [.pc] s t :=
  ⟨_, he, hpq, s.setPc_frame p⟩

section
variable {i : Instr} {s : State} {a b : Byte}

theorem completes_skip_if_eq (he : exec i s = .next (s.setPc (if a == b then s.pc + 4 else s.pc + 2))) :
    Completes i s fun t => t.pc = (if a.toNat = b.toNat then s.pc + 4 else s.pc + 2) ∧ Frame [.pc] s t :=
  completes_of_setPc he (by simp only [beq_iff_eq, BitVec.toNat_inj])

theorem completes_skip_if_ne (he : exec i s = .next (s.setPc (if a != b then s.pc + 4 else s.pc + 2))) :
    Completes i s fun t => t.pc = (if a.toNat = b.toNat then s.pc + 2 else s.pc + 4) ∧ Frame [.pc] s t :=
  completes_of_setPc he (by simp only [bne_iff_ne, ne_eq, ite_not, BitVec.toNat_inj])

end

/-- Settles O7: 3XNN is the skip on equal bytes, 4XNN the skip on unequal ones. -/
theorem byteSkipsCompareVxWithNN : Obligations.ByteSkipsCompareVxWithNN :=
  ⟨rowDecodes_of_family 3 (by decide) _ decodeWord_family3,
    rowDecodes_of_family 4 (by decide) _ decodeWord_family4,
    fun x nn s => ⟨completes_skip_if_eq (exec_seImm s x nn), completes_skip_if_ne (exec_sneImm s x nn)⟩⟩

/-- Settles O8: the low nibble 0 is each family's one row, and the same two skips compare VX with VY. -/
theorem registerSkipsCompareVxWithVy : Obligations.RegisterSkipsCompareVxWithVy :=
  ⟨rowDecodes_of_family_nibble 5 0 (by decide) (by decide) _ decodeWord_seReg,
    rowDecodes_of_family_nibble 9 0 (by decide) (by decide) _ decodeWord_sneReg,
    execute_skip_badOpcode,
    fun x y s => ⟨completes_skip_if_eq (exec_seReg s x y), completes_skip_if_ne (exec_sneReg s x y)⟩⟩

end Sys2Proof.Machine
end

section
/-! PROOFS. Families 6, 7 and 8 without a flag (spec/42_alu.md): one byte is written to VX, and what that byte is says
all that the instructions differ in. -/

namespace Sys2Proof.Machine

/-! ### Decoding the rows -/

theorem decodeWord_family6 (w : Word) (h : (fieldF w).val = 6) :
    decodeWord w = .ok (.ldImm (fieldX w) (fieldNN w)) := by
  simp [decodeWord, h]

theorem decodeWord_family7 (w : Word) (h : (fieldF w).val = 7) :
    decodeWord w = .ok (.addImm (fieldX w) (fieldNN w)) := by
  simp [decodeWord, h]

theorem decodeWord_family8 (w : Word) (h : (fieldF w).val = 8) : decodeWord w = decodeFamily8 w := by
  simp [decodeWord, h]

theorem decodeWord_ldReg (w : Word) (hF : (fieldF w).val = 8) (hN : (fieldN w).val = 0) :
    decodeWord w = .ok (.ldReg (fieldX w) (fieldY w)) := by
  simp [decodeWord_family8 w hF, decodeFamily8, hN]

theorem decodeWord_orReg (w : Word) (hF : (fieldF w).val = 8) (hN : (fieldN w).val = 1) :
    decodeWord w = .ok (.orReg (fieldX w) (fieldY w)) := by
  simp [decodeWord_family8 w hF, decodeFamily8, hN]

theorem decodeWord_andReg (w : Word) (hF : (fieldF w).val = 8) (hN : (fieldN w).val = 2) :
    decodeWord w = .ok (.andReg (fieldX w) (fieldY w)) := by
  simp [decodeWord_family8 w hF, decodeFamily8, hN]

theorem decodeWord_xorReg (w : Word) (hF : (fieldF w).val = 8) (hN : (fieldN w).val = 3) :
    decodeWord w = .ok (.xorReg (fieldX w) (fieldY w)) := by
  simp [decodeWord_family8 w hF, decodeFamily8, hN]

/-! ### Writing VX -/

/-- A property of the next state that follows from what is known of it. -/
theorem Completes.imp {i : Instr} {s : State} {p q : State → Prop} (h : Completes i s p) (hpq : ∀ t, p t → q t) :
    Completes i s q := by
  obtain ⟨t, he, hp⟩ := h
  exact ⟨t, he, hpq t hp⟩

/-- An instruction that writes VX and advances `pc` completes, with no flag: the other registers, VF among them unless
it is VX, stay as they are. -/
theorem completes_of_setV {i : Instr} {s : State} {x : Reg} {r : Byte}
    (he : exec i s = .next ((s.setV x r).setPc (s.pc + 2))) :
    Completes i s fun t => t.v x = r ∧ OtherRegsSame [x] s t ∧ t.pc = s.pc + 2 ∧ Frame [.V, .pc] s t := by
  obtain ⟨t, ht, hspec⟩ := writeV_spec s x r
  exact ⟨t, he.trans ht, hspec⟩

/-- Settles O9: both loads are the write of VX, of NN or of the old VY. -/
theorem loadsWriteVxOnly : Obligations.LoadsWriteVxOnly :=
  ⟨rowDecodes_of_family 6 (by decide) _ decodeWord_family6,
    rowDecodes_of_family_nibble 8 0 (by decide) (by decide) _ decodeWord_ldReg,
    fun x y nn s => ⟨completes_of_setV (exec_ldImm s x nn), completes_of_setV (exec_ldReg s x y)⟩⟩

/-- Settles O10: the byte written is a sum of bytes, which wraps at 256. -/
theorem addByteWrapsWithoutFlag : Obligations.AddByteWrapsWithoutFlag := by
  refine ⟨rowDecodes_of_family 7 (by decide) _ decodeWord_family7, fun x nn s => ?_⟩
  refine (completes_of_setV (exec_addImm s x nn)).imp fun t ⟨hv, hrest⟩ => ⟨?_, hrest⟩
  rw [hv, BitVec.toNat_add]

/-- Settles O11: each bit of the byte written is the operation on the two old bits. -/
theorem bitwiseOpsWorkBitByBit : Obligations.BitwiseOpsWorkBitByBit := by
  refine ⟨rowDecodes_of_family_nibble 8 1 (by decide) (by decide) _ decodeWord_orReg,
    rowDecodes_of_family_nibble 8 2 (by decide) (by decide) _ decodeWord_andReg,
    rowDecodes_of_family_nibble 8 3 (by decide) (by decide) _ decodeWord_xorReg, fun x y s => ⟨?or, ?and, ?xor⟩⟩
  case or =>
    refine (completes_of_setV (exec_orReg s x y)).imp fun t ⟨hv, hrest⟩ => ⟨fun b => ?_, hrest⟩
    rw [hv, BitVec.getLsbD_or]
  case and =>
    refine (completes_of_setV (exec_andReg s x y)).imp fun t ⟨hv, hrest⟩ => ⟨fun b => ?_, hrest⟩
    rw [hv, BitVec.getLsbD_and]
  case xor =>
    refine (completes_of_setV (exec_xorReg s x y)).imp fun t ⟨hv, hrest⟩ => ⟨fun b => ?_, fun hxy => ?_, hrest⟩
    · rw [hv, BitVec.getLsbD_xor]
    · exact hv.trans (hxy ▸ BitVec.xor_self)

end Sys2Proof.Machine
end

section
/-! PROOFS. Family A (spec/43_index_jump_rand.md): `I` is written with a 12-bit address and nothing else is touched. -/

namespace Sys2Proof.Machine

theorem decodeWord_familyA (w : Word) (h : (fieldF w).val = 0xA) : decodeWord w = .ok (.ldI (fieldNNN w)) := by
  simp [decodeWord, h]

/-- An address of 12 bits stays in the 4096 cells when it is widened to a word. -/
theorem addrWord_le (n : Addr) : (addrWord n).toNat ≤ 0xFFF :=
  (toNat_addrWord n).trans_le (Nat.le_of_lt_succ n.isLt)

/-- Writing `I` and moving `pc` leave every other part alone. -/
theorem State.setI_setPc_frame (s : State) (a p : Word) : Frame [.I, .pc] s ((s.setI a).setPc p) := by
  intro q hq
  cases q <;> simp_all [Part.same]

/-- Settles O15: the one next state has `I` at NNN widened to a word, which keeps its value and so its bound. -/
theorem loadIndexSetsI : Obligations.LoadIndexSetsI :=
  ⟨rowDecodes_of_family 0xA (by decide) _ decodeWord_familyA,
    fun n s => ⟨_, exec_ldI s n, toNat_addrWord n, addrWord_le n, rfl, s.setI_setPc_frame _ _⟩⟩

end Sys2Proof.Machine
end

section
/-! PROOFS. Family F (spec/46_fx.md): the sub-opcode is the low byte, and FX07 writes VX with a timer that the tick of the
same step cannot take back. -/

namespace Sys2Proof.Machine

/-! ### Decoding the row -/

/-- A row of the mask 0xF0FF decodes as every word of its family with its low byte does. -/
theorem rowDecodes_of_family_byte (f m : Nat) (hf : f < 16) (hm : m < 256) (build : Word → Instr)
    (h : ∀ w : Word, (fieldF w).val = f → (fieldNN w).toNat = m → decodeWord w = .ok (build w)) :
    RowDecodes 0xF0FF (BitVec.ofNat 16 (f * 4096 + m)) build := by
  intro w hw
  obtain ⟨hF, hNN⟩ := fields_of_mask_XNN f w m hf hm hw
  exact h w hF hNN

theorem decodeWord_familyF (w : Word) (h : (fieldF w).val = 0xF) : decodeWord w = decodeFamilyF w := by
  simp [decodeWord, h]

theorem decodeWord_ldVxDT (w : Word) (hF : (fieldF w).val = 0xF) (hNN : (fieldNN w).toNat = 0x07) :
    decodeWord w = .ok (.ldVxDT (fieldX w)) := by
  simp [decodeWord_familyF w hF, decodeFamilyF, hNN]

/-! ### The register and the timer tick -/

/-- The end of a step, with or without a timer tick, writes no general register (R221, R222). -/
@[simp] theorem State.v_advance (s : State) (k : Reg) : s.advance.1.v k = s.v k :=
  s.advance_frame .V (by decide) k

/-- Settles O22: FX07 is the write of VX with `dt`, and `advance` keeps every register. -/
theorem delayTimerIsRead : Obligations.DelayTimerIsRead := by
  refine ⟨rowDecodes_of_family_byte 0xF 0x07 (by decide) (by decide) _ decodeWord_ldVxDT, fun x s => ?_⟩
  refine (completes_of_setV (exec_ldVxDT s x)).imp fun t ⟨hv, hrest⟩ => ⟨hv, ?_, hrest⟩
  rw [State.v_advance, hv]

end Sys2Proof.Machine
end

section
/-! PROOFS. The encoding (spec/30_encoding.md): decoding and encoding are inverse to each other, the opcode table and
the decoder by families agree, and the rejected words are those of table T10. -/

namespace Sys2Proof

open Machine

/-! ### The rows not named so far -/

theorem decodeWord_familyB (w : Word) (h : (fieldF w).val = 0xB) : decodeWord w = .ok (.jpV0 (fieldNNN w)) := by
  simp [decodeWord, h]

theorem decodeWord_familyC (w : Word) (h : (fieldF w).val = 0xC) :
    decodeWord w = .ok (.rnd (fieldX w) (fieldNN w)) := by
  simp [decodeWord, h]

theorem decodeWord_familyD (w : Word) (h : (fieldF w).val = 0xD) :
    decodeWord w = .ok (.drw (fieldX w) (fieldY w) (fieldN w)) := by
  simp [decodeWord, h]

theorem decodeWord_familyE (w : Word) (h : (fieldF w).val = 0xE) : decodeWord w = decodeFamilyE w := by
  simp [decodeWord, h]

/-- The words of a row of family 8: what the sub-opcode in the low nibble makes. -/
theorem decodeWord_row8 (m : Nat) (hm : m < 16) {w : Word} {i : Instr}
    (h : (fieldN w).val = m → decodeFamily8 w = .ok i) (hw : w &&& 0xF00F = BitVec.ofNat 16 (0x8 * 4096 + m)) :
    decodeWord w = .ok i := by
  obtain ⟨hF, hN⟩ := fields_of_mask_XYN 0x8 w m (by decide) hm hw
  rw [decodeWord_family8 w hF, h hN]

/-- The words of a row of family E: what the sub-opcode in the low byte makes. -/
theorem decodeWord_rowE (m : Nat) (hm : m < 256) {w : Word} {i : Instr}
    (h : (fieldNN w).toNat = m → decodeFamilyE w = .ok i) (hw : w &&& 0xF0FF = BitVec.ofNat 16 (0xE * 4096 + m)) :
    decodeWord w = .ok i := by
  obtain ⟨hF, hNN⟩ := fields_of_mask_XNN 0xE w m (by decide) hm hw
  rw [decodeWord_familyE w hF, h hNN]

/-- The words of a row of family F: what the sub-opcode in the low byte makes. -/
theorem decodeWord_rowF (m : Nat) (hm : m < 256) {w : Word} {i : Instr}
    (h : (fieldNN w).toNat = m → decodeFamilyF w = .ok i) (hw : w &&& 0xF0FF = BitVec.ofNat 16 (0xF * 4096 + m)) :
    decodeWord w = .ok i := by
  obtain ⟨hF, hNN⟩ := fields_of_mask_XNN 0xF w m (by decide) hm hw
  rw [decodeWord_familyF w hF, h hNN]

/-! ### Decoding an encoded instruction -/

/-- SYS names no word that family 0 decodes first. -/
theorem decodeFamily0_wordNNN (n : Addr) (h : (Instr.sys n).wf = true) : decodeFamily0 (wordNNN 0 n) = .sys n := by
  simp only [Instr.wf, Bool.and_eq_true, bne_iff_ne] at h
  obtain ⟨hcls, hret⟩ := h
  have hn : fieldNNN (wordNNN 0 n) = n := fieldNNN_wordNNN 0 n (by decide)
  have h1 : wordNNN 0 n ≠ 0x00E0 := fun e => hcls (by rw [← hn, e]; rfl)
  have h2 : wordNNN 0 n ≠ 0x00EE := fun e => hret (by rw [← hn, e]; rfl)
  rw [decodeFamily0, if_neg h1, if_neg h2, hn]

theorem decodeWord_encodeWord (i : Instr) (h : i.wf = true) : decodeWord (encodeWord i) = .ok i := by
  cases i
  case cls | ret => rfl
  case sys n =>
    exact (decodeWord_family0 _ (fieldF_wordNNN 0 n (by decide))).trans (congrArg _ (decodeFamily0_wordNNN n h))
  case jp | call | ldI | jpV0 =>
    simp [encodeWord, decodeWord, fieldF_wordNNN, fieldNNN_wordNNN]
  case seImm | sneImm | ldImm | addImm | rnd =>
    simp [encodeWord, decodeWord, fieldF_wordXNN, fieldX_wordXNN, fieldNN_wordXNN]
  case skp | sknp =>
    simp [encodeWord, decodeWord, decodeFamilyE, fieldF_wordXNN, fieldX_wordXNN, fieldNN_wordXNN]
  case ldVxDT | ldVxK | ldDTVx | ldSTVx | addI | ldF | ldB | storeRegs | loadRegs =>
    simp [encodeWord, decodeWord, decodeFamilyF, fieldF_wordXNN, fieldX_wordXNN, fieldNN_wordXNN]
  all_goals
    simp [encodeWord, decodeWord, decodeFamily5, decodeFamily8, decodeFamily9, fieldF_wordXYN, fieldX_wordXYN,
      fieldY_wordXYN, fieldN_wordXYN]

/-- Decoding the two bytes of a word is decoding the word. -/
theorem decode_bytes_of_word (w : Word) : decode [hiByte w, loByte w] = (decodeWord w).map fun i => (i, []) := by
  rw [decode, wordOfBytes_bytes]

/-- Settles O46: the fields of an encoded word are the operands, family by family, and two bytes make the word again. -/
theorem decodeInvertsEncode : Obligations.DecodeInvertsEncode := by
  intro i hi
  have hw := decodeWord_encodeWord i hi
  exact ⟨hw, by rw [encode, decode_bytes_of_word, hw]; rfl⟩

/-! ### Encoding a decoded word -/

section
variable {w : Word} {i : Instr}

theorem wordXYN_of_nibble {f : Nat} {n : Fin 16} (hF : (fieldF w).val = f) (hN : (fieldN w).val = n.val) :
    wordXYN f (fieldX w) (fieldY w) n = w := by
  rw [← Fin.ext hN, wordXYN_fields f w hF]

theorem wordXNN_of_byte {f : Nat} {nn : Byte} (hF : (fieldF w).val = f) (hNN : (fieldNN w).toNat = nn.toNat) :
    wordXNN f (fieldX w) nn = w := by
  rw [← BitVec.eq_of_toNat_eq hNN, wordXNN_fields f w hF]

theorem encodeWord_decodeFamily0 (hF : (fieldF w).val = 0) :
    (decodeFamily0 w).wf = true ∧ encodeWord (decodeFamily0 w) = w := by
  have hw : wordNNN 0 (fieldNNN w) = w := wordNNN_fields 0 w hF
  unfold decodeFamily0
  split
  case isTrue h => exact ⟨rfl, h.symm⟩
  split
  case isTrue h => exact ⟨rfl, h.symm⟩
  case isFalse hcls hret =>
    refine ⟨?_, hw⟩
    simp only [Instr.wf, Bool.and_eq_true, bne_iff_ne]
    exact ⟨fun e => hcls (by rw [← hw, e]; rfl), fun e => hret (by rw [← hw, e]; rfl)⟩

theorem encodeWord_decodeFamily8 (hF : (fieldF w).val = 8) (h : decodeFamily8 w = .ok i) :
    i.wf = true ∧ encodeWord i = w := by
  unfold decodeFamily8 at h
  split at h <;> cases h
  all_goals exact ⟨rfl, wordXYN_of_nibble hF ‹_›⟩

theorem encodeWord_decodeFamilyE (hF : (fieldF w).val = 0xE) (h : decodeFamilyE w = .ok i) :
    i.wf = true ∧ encodeWord i = w := by
  unfold decodeFamilyE at h
  split at h <;> cases h
  all_goals exact ⟨rfl, wordXNN_of_byte hF ‹_›⟩

theorem encodeWord_decodeFamilyF (hF : (fieldF w).val = 0xF) (h : decodeFamilyF w = .ok i) :
    i.wf = true ∧ encodeWord i = w := by
  unfold decodeFamilyF at h
  split at h <;> cases h
  all_goals exact ⟨rfl, wordXNN_of_byte hF ‹_›⟩

theorem encodeWord_of_decodeWord (h : decodeWord w = .ok i) : i.wf = true ∧ encodeWord i = w := by
  unfold decodeWord at h
  split at h
  case h_1 hF => cases h; exact encodeWord_decodeFamily0 hF
  case h_2 hF | h_3 hF | h_11 hF | h_12 hF => cases h; exact ⟨rfl, wordNNN_fields _ w hF⟩
  case h_4 hF | h_5 hF | h_7 hF | h_8 hF | h_13 hF => cases h; exact ⟨rfl, wordXNN_fields _ w hF⟩
  case h_6 hF | h_10 hF =>
    simp only [decodeFamily5, decodeFamily9] at h
    split at h <;> cases h
    exact ⟨rfl, wordXYN_of_nibble hF (congrArg Fin.val ‹fieldN w = 0›)⟩
  case h_9 hF => exact encodeWord_decodeFamily8 hF h
  case h_14 hF => cases h; exact ⟨rfl, wordXYN_fields _ w hF⟩
  case h_15 hF => exact encodeWord_decodeFamilyE hF h
  case h_16 =>
    have hF : (fieldF w).val = 0xF := by grind
    exact encodeWord_decodeFamilyF hF h

end

/-- Settles O47: a word is made of its fields again, family by family. -/
theorem encodeInvertsDecode : Obligations.EncodeInvertsDecode := fun _ _ => encodeWord_of_decodeWord

/-! ### The opcode table -/

/-- A row of the table decodes the words it has, when they are not the two words the first rows take from SYS. -/
theorem opcodeTable_rows (w : Word) (hcls : w ≠ 0x00E0) (hret : w ≠ 0x00EE) :
    ∀ r ∈ opcodeTable, w &&& r.mask = r.val → decodeWord w = .ok (r.build w) := by
  have hsys : w &&& 0xF000 = 0x0000 → decodeWord w = .ok (.sys (fieldNNN w)) := fun h => by
    rw [decodeWord_family0 w (family_of_mask 0 w (by decide) h), decodeFamily0, if_neg hcls, if_neg hret]
  have hmask : w &&& 0xFFFF = w := BitVec.and_allOnes
  simp only [opcodeTable, List.cons_append, List.nil_append, List.forall_mem_cons]
  exact ⟨fun h => absurd (hmask.symm.trans h) hcls,
    fun h => absurd (hmask.symm.trans h) hret,
    hsys,
    rowDecodes_of_family 1 (by decide) _ decodeWord_family1 w,
    rowDecodes_of_family 2 (by decide) _ decodeWord_family2 w,
    rowDecodes_of_family 3 (by decide) _ decodeWord_family3 w,
    rowDecodes_of_family 4 (by decide) _ decodeWord_family4 w,
    rowDecodes_of_family_nibble 5 0 (by decide) (by decide) _ decodeWord_seReg w,
    rowDecodes_of_family 6 (by decide) _ decodeWord_family6 w,
    rowDecodes_of_family 7 (by decide) _ decodeWord_family7 w,
    decodeWord_row8 0x0 (by decide) fun h => by simp [decodeFamily8, h],
    decodeWord_row8 0x1 (by decide) fun h => by simp [decodeFamily8, h],
    decodeWord_row8 0x2 (by decide) fun h => by simp [decodeFamily8, h],
    decodeWord_row8 0x3 (by decide) fun h => by simp [decodeFamily8, h],
    decodeWord_row8 0x4 (by decide) fun h => by simp [decodeFamily8, h],
    decodeWord_row8 0x5 (by decide) fun h => by simp [decodeFamily8, h],
    decodeWord_row8 0x6 (by decide) fun h => by simp [decodeFamily8, h],
    decodeWord_row8 0x7 (by decide) fun h => by simp [decodeFamily8, h],
    decodeWord_row8 0xE (by decide) fun h => by simp [decodeFamily8, h],
    rowDecodes_of_family_nibble 9 0 (by decide) (by decide) _ decodeWord_sneReg w,
    rowDecodes_of_family 0xA (by decide) _ decodeWord_familyA w,
    rowDecodes_of_family 0xB (by decide) _ decodeWord_familyB w,
    rowDecodes_of_family 0xC (by decide) _ decodeWord_familyC w,
    rowDecodes_of_family 0xD (by decide) _ decodeWord_familyD w,
    decodeWord_rowE 0x9E (by decide) fun h => by simp [decodeFamilyE, h],
    decodeWord_rowE 0xA1 (by decide) fun h => by simp [decodeFamilyE, h],
    decodeWord_rowF 0x07 (by decide) fun h => by simp [decodeFamilyF, h],
    decodeWord_rowF 0x0A (by decide) fun h => by simp [decodeFamilyF, h],
    decodeWord_rowF 0x15 (by decide) fun h => by simp [decodeFamilyF, h],
    decodeWord_rowF 0x18 (by decide) fun h => by simp [decodeFamilyF, h],
    decodeWord_rowF 0x1E (by decide) fun h => by simp [decodeFamilyF, h],
    decodeWord_rowF 0x29 (by decide) fun h => by simp [decodeFamilyF, h],
    decodeWord_rowF 0x33 (by decide) fun h => by simp [decodeFamilyF, h],
    decodeWord_rowF 0x55 (by decide) fun h => by simp [decodeFamilyF, h],
    decodeWord_rowF 0x65 (by decide) fun h => by simp [decodeFamilyF, h],
    by simp⟩

/-- Every instruction's row, by its mask and match, stands in the table. -/
theorem opcodeRow_mem_opcodeTable (i : Instr) : i.opcodeRow ∈ opcodeTable.map fun r => (r.mask, r.val) := by
  cases i <;> simp [Instr.opcodeRow, opcodeTable]

open Laws.EncodeFits in
/-- The encoded word of any instruction fits the instruction's row. -/
theorem encodeWord_fits_opcodeRow (i : Instr) : encodeWord i &&& i.opcodeRow.1 = i.opcodeRow.2 :=
  match i with
  | .cls => cls
  | .ret => ret
  | .sys n => sys n
  | .jp n => jp n
  | .call n => call n
  | .seImm x nn => seImm x nn
  | .sneImm x nn => sneImm x nn
  | .seReg x y => seReg x y
  | .ldImm x nn => ldImm x nn
  | .addImm x nn => addImm x nn
  | .ldReg x y => ldReg x y
  | .orReg x y => orReg x y
  | .andReg x y => andReg x y
  | .xorReg x y => xorReg x y
  | .addReg x y => addReg x y
  | .subReg x y => subReg x y
  | .shr x y => shr x y
  | .subn x y => subn x y
  | .shl x y => shl x y
  | .sneReg x y => sneReg x y
  | .ldI n => ldI n
  | .jpV0 n => jpV0 n
  | .rnd x nn => rnd x nn
  | .drw x y n => drw x y n
  | .skp x => skp x
  | .sknp x => sknp x
  | .ldVxDT x => ldVxDT x
  | .ldVxK x => ldVxK x
  | .ldDTVx x => ldDTVx x
  | .ldSTVx x => ldSTVx x
  | .addI x => addI x
  | .ldF x => ldF x
  | .ldB x => ldB x
  | .storeRegs x => storeRegs x
  | .loadRegs x => loadRegs x

/-- A word that decodes fits some row of the table. -/
theorem exists_row_of_decodeWord {w : Word} {i : Instr} (h : decodeWord w = .ok i) :
    ∃ r ∈ opcodeTable, w &&& r.mask = r.val := by
  obtain ⟨r, hr, he⟩ := List.mem_map.mp (opcodeRow_mem_opcodeTable i)
  have hfit := encodeWord_fits_opcodeRow i
  rw [(encodeWord_of_decodeWord h).2, ← he] at hfit
  exact ⟨r, hr, hfit⟩

/-- Settles O48: the row the table's search finds decodes the word, and when it finds none no instruction has it. -/
theorem decoderAgreesWithTheOpcodeTable : Obligations.DecoderAgreesWithTheOpcodeTable := by
  intro w
  by_cases hcls : w = 0x00E0
  · rw [hcls]; rfl
  by_cases hret : w = 0x00EE
  · rw [hret]; rfl
  rw [decodeByTable]
  cases hfind : opcodeTable.find? fun r => w &&& r.mask == r.val with
  | some r =>
    have hfit : w &&& r.mask = r.val := by simpa using List.find?_some hfind
    rw [opcodeTable_rows w hcls hret r (List.mem_of_find?_eq_some hfind) hfit]
    rfl
  | none =>
    cases hd : decodeWord w with
    | error => rfl
    | ok i =>
      obtain ⟨r, hr, hfit⟩ := exists_row_of_decodeWord hd
      exact absurd (beq_iff_eq.mpr hfit) (List.find?_eq_none.mp hfind r hr)

/-! ### The rejected words -/

theorem decodeFamily5_rejects (w : Word) : (∃ e, decodeFamily5 w = .error e) ↔ fieldN w ≠ 0 := by
  unfold decodeFamily5; split <;> simp [*]

theorem decodeFamily9_rejects (w : Word) : (∃ e, decodeFamily9 w = .error e) ↔ fieldN w ≠ 0 := by
  unfold decodeFamily9; split <;> simp [*]

theorem decodeFamily8_rejects (w : Word) :
    (∃ e, decodeFamily8 w = .error e) ↔ fieldN w ∈ [(0x8 : Fin 16), 0x9, 0xA, 0xB, 0xC, 0xD, 0xF] := by
  unfold decodeFamily8
  generalize fieldN w = n
  fin_cases n <;> simp

theorem decodeFamilyE_rejects (w : Word) :
    (∃ e, decodeFamilyE w = .error e) ↔ fieldNN w ∉ [(0x9E : Byte), 0xA1] := by
  unfold decodeFamilyE
  split <;> simp_all [← BitVec.toNat_inj]

theorem decodeFamilyF_rejects (w : Word) :
    (∃ e, decodeFamilyF w = .error e) ↔
      fieldNN w ∉ [(0x07 : Byte), 0x0A, 0x15, 0x18, 0x1E, 0x29, 0x33, 0x55, 0x65] := by
  unfold decodeFamilyF
  split <;> simp_all [← BitVec.toNat_inj]

/-- Settles O49: eleven families reject nothing, and each of the other five its own sub-opcodes. -/
theorem rejectedWordsAreTableT10 : Obligations.RejectedWordsAreTableT10 := by
  intro w
  unfold decodeWord
  generalize fieldF w = f
  fin_cases f <;> simp [decodeFamily5_rejects, decodeFamily8_rejects, decodeFamily9_rejects, decodeFamilyE_rejects,
    decodeFamilyF_rejects]

/-- Settles O50: seventeen closed words, each decoded by evaluation. -/
theorem exampleWordsDecode : Obligations.ExampleWordsDecode :=
  ⟨rfl, rfl, rfl, rfl, rfl, rfl, rfl, rfl, rfl, rfl, rfl, rfl, rfl, rfl, rfl, rfl, rfl⟩

end Sys2Proof
end

section
/-! PROOFS. Frames of the named updates, each said once: a frame of several updates is put together from theirs. And what
a completed instruction says of the one next state it answers. -/

namespace Sys2Proof.Machine

variable {s t u : State}

/-! ### Putting frames together -/

theorem Part.same_trans (p : Part) (h : p.same s t) (h' : p.same t u) : p.same s u := by
  cases p
  case V | mem => exact fun k => (h' k).trans (h k)
  all_goals exact Eq.trans h' h

theorem Frame.refl (l : List Part) (s : State) : Frame l s s := by
  intro p _
  cases p
  case V | mem => exact fun _ => rfl
  all_goals rfl

theorem Frame.trans {l l' : List Part} (h : Frame l s t) (h' : Frame l' t u) : Frame (l ++ l') s u := by
  intro p hp
  obtain ⟨hl, hl'⟩ := not_or.mp (mt List.mem_append.mpr hp)
  exact p.same_trans (h p hl) (h' p hl')

theorem Frame.otherRegsSame {l : List Part} (h : Frame l s t) (hV : Part.V ∉ l) (written : List Reg) :
    OtherRegsSame written s t := fun k _ => h .V hV k

theorem Frame.setPc {l : List Part} (h : Frame l s t) (w : Word) : Frame (l ++ [.pc]) s (t.setPc w) :=
  h.trans (t.setPc_frame w)

variable (s)

theorem State.setRegs_frame (first : Nat) (bs : List Byte) : Frame [.V] s (s.setRegs first bs) := by
  intro p hp; cases p <;> simp_all [Part.same]

theorem State.setBytes_frame (base : Nat) (bs : List Byte) : Frame [.mem] s (s.setBytes base bs) := by
  intro p hp; cases p <;> simp_all [Part.same]

theorem State.setScreen_frame (f : Screen) : Frame [.fb, .dirty] s (s.setScreen f) := by
  intro p hp; cases p <;> simp_all [Part.same]

theorem State.setDt_frame (b : Byte) : Frame [.dt] s (s.setDt b) := by
  intro p hp; cases p <;> simp_all [Part.same]

theorem State.setSt_frame (b : Byte) : Frame [.st] s (s.setSt b) := by
  intro p hp; cases p <;> simp_all [Part.same]

/-! ### Completed instructions -/

variable {s}

theorem Completes.of_next {i : Instr} {p : State → Prop} (h : Completes i s p) (ht : exec i s = .next t) : p t := by
  obtain ⟨t', ht', hp⟩ := h
  obtain rfl := Host.Outcome.next.inj (ht'.symm.trans ht)
  exact hp

end Sys2Proof.Machine
end

section
/-! PROOFS. Families 0 and 2 once more (spec/40_flow.md): a blank screen, and the calls and returns of a nest, which
push and pop the list of the stack entries in use. -/

namespace Sys2Proof.Machine

/-- Settles O6: the one next state has the blank framebuffer, marked dirty. -/
theorem clsBlanksTheScreen : Obligations.ClsBlanksTheScreen :=
  fun s => ⟨_, exec_cls s, fun x y _ _ => Screen.pixel_blank x y, rfl, rfl,
    (s.setScreen_frame _).setPc _⟩

/-- The stack entries in use, the last pushed first (R27). -/
def State.entries (s : State) : List Word := (s.stack.toList.take s.sp.val).reverse

theorem State.length_entries (s : State) : s.entries.length = s.sp.val := by
  have := s.sp.isLt
  simp only [State.entries, List.length_reverse, List.length_take, Vector.length_toList]
  omega

/-- A CALL with room pushes its own address. -/
theorem exec_call_entries (n : Addr) (s : State) (h : s.sp.val < 16) :
    ∃ t, exec (.call n) s = .next t ∧ t.sp.val = s.sp.val + 1 ∧ t.entries = s.pc :: s.entries := by
  refine ⟨_, exec_call_room n s h, rfl, ?_⟩
  simp [State.entries, List.take_add_one, h, Vector.toList_set, List.take_set_of_le]

/-- A RET goes two past the entry it pops. -/
theorem exec_ret_entries (s : State) {w : Word} {rest : List Word} (h : s.entries = w :: rest) :
    ∃ t, exec .ret s = .next t ∧ t.pc = w + 2 ∧ t.entries = rest := by
  have hlen := s.length_entries
  rw [h, List.length_cons] at hlen
  have hj : rest.length < 16 := by omega
  have htop : s.entries = s.stack[rest.length] :: (s.stack.toList.take rest.length).reverse := by
    simp [State.entries, ← hlen, List.take_add_one, hj]
  obtain ⟨hw, hrest⟩ := List.cons.inj (h.symm.trans htop)
  exact ⟨_, exec_ret_pop s ⟨rest.length, hj⟩ hlen.symm, by rw [hw], hrest.symm⟩

/-- Nested CALLs leave their sites on the stack, the last on top. -/
theorem nestedCalls_entries (sites : List (Word × Addr)) (s : State) (h : s.sp.val + sites.length ≤ 16) :
    ∃ t, nestedCalls sites s = some t ∧ t.sp.val = s.sp.val + sites.length ∧
      t.entries = (sites.map Prod.fst).reverse ++ s.entries := by
  induction sites generalizing s with
  | nil => exact ⟨s, rfl, rfl, rfl⟩
  | cons c rest ih =>
    obtain ⟨site, target⟩ := c
    rw [List.length_cons] at h
    obtain ⟨s1, hcall, hsp, hents⟩ := exec_call_entries target (s.setPc site) (by rw [State.setPc_sp]; omega)
    rw [State.setPc_sp] at hsp
    obtain ⟨t, hrest, htsp, htents⟩ := ih s1 (by omega)
    refine ⟨t, ?_, by rw [List.length_cons]; omega, ?_⟩
    · rw [nestedCalls, hcall]; exact hrest
    · rw [htents, hents, List.map_cons, List.reverse_cons, List.append_assoc]; rfl

/-- As many RETs as there are entries on top of the stack go two past each of them. -/
theorem nestedReturns_entries (top rest : List Word) (s : State) (h : s.entries = top ++ rest) :
    nestedReturns top.length s = some (top.map (· + 2)) := by
  induction top generalizing s with
  | nil => rfl
  | cons w top ih =>
    obtain ⟨t, hret, hpc, hents⟩ := exec_ret_entries s h
    rw [List.length_cons, nestedReturns, hret]
    simp only [ih t hents, hpc, Option.map_some, List.map_cons]

/-- Settles O5: the sites stand on the stack in reverse order, which is the order the returns read them in. -/
theorem nestedCallsReturnInReverse : Obligations.NestedCallsReturnInReverse := by
  intro sites s
  constructor
  · intro h
    obtain ⟨t, hcalls, hsp, hents⟩ := nestedCalls_entries sites s h
    have hrets := nestedReturns_entries _ _ t hents
    rw [List.length_reverse, List.length_map, List.map_reverse, List.map_map] at hrets
    exact ⟨t, hcalls, hsp, hrets⟩
  · intro h
    have hno := mt (nestedCalls_isSome_iff sites s).mp (by omega)
    simpa using hno

end Sys2Proof.Machine
end

section
/-! PROOFS. Family 8 with a flag and its shifts (spec/42_alu.md): the byte of VX and the flag, the flag written last. -/

namespace Sys2Proof.Machine

/-- An instruction that writes VX, then VF, and advances `pc` completes; VF holds the flag also when it is VX (R146). -/
theorem completes_of_setVFlag {i : Instr} {s : State} {x : Reg} {r f : Byte}
    (he : exec i s = .next (((s.setV x r).setV Reg.vf f).setPc (s.pc + 2))) :
    Completes i s fun t => (x ≠ Reg.vf → t.v x = r) ∧ t.v Reg.vf = f ∧ OtherRegsSame [x, Reg.vf] s t ∧
      t.pc = s.pc + 2 ∧ Frame [.V, .pc] s t := by
  obtain ⟨t, ht, hspec⟩ := writeVAndFlag_spec s x r f
  exact ⟨t, he.trans ht, hspec⟩

theorem toNat_carryFlag (a b : Byte) : (carryFlag a b).toNat = if 256 ≤ a.toNat + b.toNat then 1 else 0 := by
  simp [carryFlag, Nat.lt_iff_add_one_le]

theorem toNat_notBorrowFlag (p q : Byte) : (notBorrowFlag p q).toNat = if p.toNat < q.toNat then 0 else 1 := by
  by_cases h : p.toNat < q.toNat <;> simp [notBorrowFlag, h]

/-- The difference mod 256, with and without a borrow (R150). -/
theorem toNat_byte_sub (p q : Byte) :
    (p - q).toNat = if p.toNat < q.toNat then p.toNat + 256 - q.toNat else p.toNat - q.toNat := by
  rw [BitVec.toNat_sub]
  split <;> omega

/-- Settles O12: VX is the sum of the old bytes and VF its carry. -/
theorem addRegisterSetsCarry : Obligations.AddRegisterSetsCarry := by
  intro x y s
  refine (completes_of_setVFlag (exec_addReg s x y)).imp fun t ⟨hv, hf, hrest⟩ => ⟨fun hx => ?_, ?_, hrest⟩
  · rw [hv hx, BitVec.toNat_add]
  · rw [hf, toNat_carryFlag]

/-- A difference in VX and its not-borrow flag in VF. -/
theorem completes_sub {i : Instr} {s : State} {x : Reg} {p q : Byte}
    (he : exec i s = .next (((s.setV x (p - q)).setV Reg.vf (notBorrowFlag p q)).setPc (s.pc + 2))) :
    Completes i s fun t =>
      (x ≠ Reg.vf → (t.v x).toNat = if p.toNat < q.toNat then p.toNat + 256 - q.toNat else p.toNat - q.toNat) ∧
      (t.v Reg.vf).toNat = (if p.toNat < q.toNat then 0 else 1) ∧
      OtherRegsSame [x, Reg.vf] s t ∧ t.pc = s.pc + 2 ∧ Frame [.V, .pc] s t := by
  refine (completes_of_setVFlag he).imp fun t ⟨hv, hf, hrest⟩ => ⟨fun hx => ?_, ?_, hrest⟩
  · rw [hv hx, toNat_byte_sub]
  · rw [hf, toNat_notBorrowFlag]

/-- Settles O13: SUB and SUBN are the same subtraction with the operands exchanged. -/
theorem subtractionsSetNotBorrow : Obligations.SubtractionsSetNotBorrow :=
  fun x y s => ⟨completes_sub (exec_subReg s x y), completes_sub (exec_subn s x y)⟩

/-- Settles O14: both shifts are one write of VX, which reads VX only. -/
theorem shiftsLeaveVfAlone : Obligations.ShiftsLeaveVfAlone := by
  refine fun x y s => ⟨?shr, ?shl, fun z => ⟨rfl, rfl⟩⟩
  case shr =>
    refine (completes_of_setV (exec_shr s x y)).imp fun t ⟨hv, hrest⟩ => ⟨?_, hrest⟩
    rw [hv, BitVec.toNat_ushiftRight, Nat.shiftRight_one]
  case shl =>
    refine (completes_of_setV (exec_shl s x y)).imp fun t ⟨hv, hrest⟩ => ⟨?_, hrest⟩
    rw [hv, BitVec.toNat_shiftLeft, Nat.shiftLeft_eq, Nat.pow_one, Nat.mul_comm]

end Sys2Proof.Machine
end

section
/-! PROOFS. Families B and C (spec/43_index_jump_rand.md): the sum of the indexed jump fits into 16 bits, and a drawn
byte is masked. -/

namespace Sys2Proof.Machine

/-- The target of BNNN does not wrap (R161). -/
theorem toNat_indexedTarget (n : Addr) (b : Byte) : (addrWord n + byteWord b).toNat = n.toNat + b.toNat := by
  rw [BitVec.toNat_add, toNat_addrWord, toNat_byteWord]
  omega

/-- Settles O16: NNN is at most 0xFFF and V0 at most 0xFF. -/
theorem indexedJumpAddsV0 : Obligations.IndexedJumpAddsV0 := by
  intro n s
  have hpc := toNat_indexedTarget n (s.v 0)
  exact ⟨_, exec_jpV0 s n, hpc, hpc.trans_le (by omega), s.setPc_frame _⟩

/-- CXNN with any drawn byte is one write of VX and one draw used up. -/
theorem rndWith_spec (r : Byte) (x : Reg) (nn : Byte) (s : State) :
    ∃ t, rndWith r x nn s = .success t ∧ t.v x = r &&& nn ∧ OtherRegsSame [x] s t ∧ t.pc = s.pc + 2 ∧
      t.draws = s.draws + 1 ∧ Frame [.V, .pc, .draws] s t := by
  refine ⟨_, rfl, s.v_setV_same x _, fun k hk => s.v_setV_other x k _ (by simpa using hk), rfl, rfl, ?_⟩
  intro p hp
  cases p <;> simp_all [Part.same]

/-- Settles O17: the instruction is CXNN with the next free byte, whatever that is. -/
theorem randomByteIsMasked : Obligations.RandomByteIsMasked := by
  refine ⟨rndWith_spec, fun x nn s => ⟨rfl, ?_⟩⟩
  obtain ⟨t, ht, hv, -⟩ := rndWith_spec (Config.randomByte s.draws) x nn s
  refine ⟨t, (exec_eq_outcome s _).trans (congrArg (Outcome.result s) ht), fun b hb => ?_⟩
  rw [hv, BitVec.getLsbD_and, hb, Bool.and_false]

end Sys2Proof.Machine
end

section
/-! PROOFS. Family E (spec/45_keys.md): a key skip moves `pc` by the level of the key VX names, if it names one. -/

namespace Sys2Proof.Machine

theorem exec_skp_of_key {x k : Reg} {s : State} (h : (s.v x).toNat = k.val) :
    exec (.skp x) s = .next (s.setPc (if s.key[k.val] then s.pc + 4 else s.pc + 2)) := by
  rcases execSkp_cases s x with ⟨hgt, -⟩ | ⟨j, hj, he⟩
  · omega
  · obtain rfl : j = k := Fin.ext (hj.symm.trans h)
    exact he

theorem exec_sknp_of_key {x k : Reg} {s : State} (h : (s.v x).toNat = k.val) :
    exec (.sknp x) s = .next (s.setPc (if !s.key[k.val] then s.pc + 4 else s.pc + 2)) := by
  rcases execSknp_cases s x with ⟨hgt, -⟩ | ⟨j, hj, he⟩
  · omega
  · obtain rfl : j = k := Fin.ext (hj.symm.trans h)
    exact he

theorem exec_skp_fault {x : Reg} {s : State} (h : 15 < (s.v x).toNat) : exec (.skp x) s = .fault .keyRange := by
  rcases execSkp_cases s x with ⟨-, he⟩ | ⟨k, hk, -⟩
  · exact he
  · omega

theorem exec_sknp_fault {x : Reg} {s : State} (h : 15 < (s.v x).toNat) : exec (.sknp x) s = .fault .keyRange := by
  rcases execSknp_cases s x with ⟨-, he⟩ | ⟨k, hk, -⟩
  · exact he
  · omega

/-- Settles O21: the two cases of each skip. -/
theorem keySkipsTestTheKeyLevel : Obligations.KeySkipsTestTheKeyLevel := by
  refine fun x s => ⟨fun k hk => ⟨completes_of_setPc (exec_skp_of_key hk) rfl,
    completes_of_setPc (exec_sknp_of_key hk) ?_⟩, fun h => ⟨exec_skp_fault h, exec_sknp_fault h⟩⟩
  cases s.key[k.val] <;> rfl

end Sys2Proof.Machine
end

section
/-! PROOFS. Family D (spec/44_draw.md): when DXYN draws, what the pixels and VF become, and a second draw. -/

namespace Sys2Proof.Machine

/-! ### The three ways DXYN ends -/

/-- DXYN reads no byte beyond 0xFFF and its edge policy lets it draw (R66, R172). -/
def DrawOk (x y : Reg) (n : RowCount) (s : State) : Prop :=
  (n.val = 0 ∨ s.I.toNat + n.val - 1 ≤ 0xFFF) ∧
  (s.cfg.drawOffscreen = .clip ∨ n.val = 0 ∨ ((s.v x).toNat + 7 ≤ 63 ∧ (s.v y).toNat + n.val - 1 ≤ 31))

/-- The drawing DXYN makes: its framebuffer and its collision bit (R171). -/
def State.drawn (x y : Reg) (n : RowCount) (s : State) : Canvas :=
  Canvas.drawRows (s.fb, false) (s.v x).toNat (s.v y).toNat (s.bytes s.I.toNat n.val)

variable {x y : Reg} {n : RowCount} {s t : State}

/-- Everything DXYN can do: the draw, and the two stops, the range being checked first. -/
theorem exec_drw_cases (x y : Reg) (n : RowCount) (s : State) :
    (DrawOk x y n s ∧ exec (.drw x y n) s = .next
      (((s.setScreen (s.drawn x y n).1).setV Reg.vf (collisionFlag (s.drawn x y n).2)).setPc (s.pc + 2))) ∨
    (0 < n.val ∧ 0xFFF < s.I.toNat + n.val - 1 ∧ exec (.drw x y n) s = .fault .memRange) ∨
    (s.I.toNat + n.val - 1 ≤ 0xFFF ∧ ¬ DrawOk x y n s ∧ exec (.drw x y n) s = .fault .drawOffscreen) := by
  have hpolicy : s.cfg.drawOffscreen = .clip ∨ s.cfg.drawOffscreen = .invalid := by
    cases s.cfg.drawOffscreen <;> simp
  rcases execDrw_cases s x y n with ⟨hr, he⟩ | ⟨hr, hp, hb, he⟩ | ⟨hr, hb, he⟩
  · simp only [memSize] at hr
    exact .inr (.inl ⟨by omega, by omega, he⟩)
  · rw [boxOffscreen_iff] at hb
    simp only [memSize] at hr
    refine .inr (.inr ⟨by omega, fun ⟨_, h⟩ => ?_, he⟩)
    rw [hp] at h
    rcases h with h | h
    · exact nomatch h
    · omega
  · rw [boxOffscreen_iff] at hb
    simp only [memSize] at hr
    refine .inl ⟨⟨by omega, ?_⟩, he⟩
    rcases hpolicy with h | h
    · exact .inl h
    · exact .inr (by have := mt (And.intro h) hb; omega)

theorem drawOk_of_next (h : exec (.drw x y n) s = .next t) : DrawOk x y n s := by
  rcases exec_drw_cases x y n s with ⟨hok, -⟩ | ⟨-, -, he⟩ | ⟨-, -, he⟩
  · exact hok
  all_goals exact nomatch he.symm.trans h

theorem exec_drw_of_drawOk (h : DrawOk x y n s) : exec (.drw x y n) s = .next
    (((s.setScreen (s.drawn x y n).1).setV Reg.vf (collisionFlag (s.drawn x y n).2)).setPc (s.pc + 2)) := by
  rcases exec_drw_cases x y n s with ⟨-, he⟩ | ⟨hn, hgt, -⟩ | ⟨-, hno, -⟩
  · exact he
  · obtain ⟨hr, -⟩ := h; omega
  · exact absurd h hno

/-- Settles O19: each condition leaves one of the three ways only. -/
theorem drawStopsOutsideItsRanges : Obligations.DrawStopsOutsideItsRanges := by
  refine fun x y n s hn => ⟨fun hgt => ?range, fun hle hinv hbox => ?box⟩
  all_goals rcases exec_drw_cases x y n s with ⟨⟨hr, hp⟩, -⟩ | ⟨-, hgt', he⟩ | ⟨hle', -, he⟩
  case range.inl | range.inr.inr => omega
  case range.inr.inl => exact he
  case box.inl =>
    rcases hp with hp | hp
    · exact nomatch hp.symm.trans hinv
    · omega
  case box.inr.inl => omega
  case box.inr.inr => exact he

/-! ### The drawing -/

theorem State.pixel_drawn (s : State) {px py : Nat} (hx : px < 64) (hy : py < 32) :
    (s.drawn x y n).1.pixel px py =
      (s.fb.pixel px py ^^ spriteAt (s.bytes s.I.toNat n.val) (s.v x).toNat (s.v y).toNat px py) :=
  (Canvas.drawRows_spec _ _ _ _).1 px py ⟨hx, hy⟩

theorem State.collision_drawn (s : State) : (s.drawn x y n).2 = true ↔
    ∃ px py : Nat, px < 64 ∧ py < 32 ∧ s.fb.pixel px py = true ∧
      spriteAt (s.bytes s.I.toNat n.val) (s.v x).toNat (s.v y).toNat px py = true := by
  refine (Canvas.drawRows_spec _ _ _ _).2.trans ?_
  simp only [Bool.false_eq_true, false_or, and_comm]

/-- Settles O18: the pixels and the collision bit are the drawing's, VF is its flag. -/
theorem drawXorsTheSprite : Obligations.DrawXorsTheSprite := by
  intro x y n s hrange hedge
  obtain ⟨hflag, hone⟩ := collisionFlag_spec (s.drawn x y n).2
  refine ⟨_, exec_drw_of_drawOk ⟨hrange, hedge⟩, fun px py hx hy => s.pixel_drawn hx hy, ?_, ?_, rfl,
    fun k hk => ?_, rfl, ?_⟩
  · rwa [State.v_setPc, State.v_setV_same]
  · rw [State.v_setPc, State.v_setV_same, hone, s.collision_drawn]
  · rw [State.v_setPc, State.v_setV_other _ _ _ _ (by simpa using hk), State.v_setScreen]
  · intro p hp
    cases p <;> simp_all [Part.same]

/-! ### Drawing twice -/

theorem State.bytes_congr (h : ∀ a, t.byte a = s.byte a) (base k : Nat) : t.bytes base k = s.bytes base k := by
  simp only [State.bytes, h]

/-- Settles O20: the second draw sees the same operands and sprite, and XOR with the sprite undoes itself. -/
theorem drawingTwiceRestoresTheScreen : Obligations.DrawingTwiceRestoresTheScreen := by
  intro x y n s t hx hy ht
  obtain ⟨hrange, hedge⟩ := drawOk_of_next ht
  obtain ⟨hpix, -, -, -, hregs, -, hframe⟩ := (drawXorsTheSprite x y n s hrange hedge).of_next ht
  have hvx : t.v x = s.v x := hregs x (by simpa using hx)
  have hvy : t.v y = s.v y := hregs y (by simpa using hy)
  have hI : t.I = s.I := hframe .I (by decide)
  have hcfg : t.cfg = s.cfg := hframe .cfg (by decide)
  have hbytes := State.bytes_congr (hframe .mem (by decide)) s.I.toNat n.val
  have hsecond := drawXorsTheSprite x y n t (by rwa [hI]) (by rwa [hcfg, hvx, hvy])
  rw [hI, hvx, hvy, hbytes] at hsecond
  refine hsecond.imp fun u ⟨hpix', _, hvf, _⟩ => ⟨Screen.ext_pixel _ _ fun px py hpx hpy => ?_, hvf.trans ?_⟩
  · rw [hpix' px py hpx hpy, hpix px py hpx hpy, Bool.xor_assoc, Bool.xor_self, Bool.xor_false]
  · refine exists_congr fun px => exists_congr fun py => and_congr_right fun hpx => and_congr_right fun hpy => ?_
    rw [hpix px py hpx hpy]
    cases s.fb.pixel px py <;>
      cases spriteAt (s.bytes s.I.toNat n.val) (s.v x).toNat (s.v y).toNat px py <;> decide

end Sys2Proof.Machine
end

section
/-! PROOFS. Fetching and stepping (spec/20_memory.md, spec/60_exceptions.md): a tick of a running machine settles the
outcome of the fetched word, and a tick that stops changes the halted latch only. -/

namespace Sys2Proof.Machine

variable {s : State} {w : Word} {i : Instr}

/-! ### Fetching -/

theorem State.fetch_of_le (h : s.pc.toNat ≤ 0xFFE) :
    s.fetch = some (wordOfBytes (s.byte s.pc.toNat) (s.byte (s.pc.toNat + 1))) := if_pos h

/-- The two bytes of a word that were stored at `a`, high byte first, make the word again. -/
theorem wordOfBytes_setBytes (s : State) (w : Word) {a : Nat} (h : a ≤ 0xFFE) :
    wordOfBytes ((s.setBytes a [hiByte w, loByte w]).byte a)
      ((s.setBytes a [hiByte w, loByte w]).byte (a + 1)) = w := by
  have hr : a + [hiByte w, loByte w].length ≤ memSize := by
    simp only [List.length_cons, List.length_nil, memSize]
    omega
  rw [State.byte_setBytes _ _ _ _ hr, State.byte_setBytes _ _ _ _ hr]
  simp [wordOfBytes_bytes]

theorem fetch_setBytes (s : State) (w : Word) (h : s.pc.toNat ≤ 0xFFE) :
    (s.setBytes s.pc.toNat [hiByte w, loByte w]).fetch = some w := by
  rw [State.fetch_of_le (by rwa [State.setBytes_pc]), State.setBytes_pc, wordOfBytes_setBytes s w h]

/-- Settles O31: the fetch's two branches, and a read of the two bytes just written. -/
theorem fetchIsBigEndian : Obligations.FetchIsBigEndian := by
  refine fun s => ⟨fun h => ⟨_, State.fetch_of_le h, ?_⟩, s.fetch_none.mpr, fun w a ha => ?_⟩
  · rw [toNat_wordOfBytes, Nat.mul_comm]
  · have hpc : (BitVec.ofNat 16 a).toNat = a := by rw [BitVec.toNat_ofNat]; omega
    have h := fetch_setBytes (s.setPc (BitVec.ofNat 16 a)) w (by rw [State.setPc_pc]; omega)
    rwa [State.setPc_pc, hpc] at h

/-! ### The tick of a running machine -/

theorem tick_of_fetch (hr : s.Running) (hf : s.fetch = some w) : tick s = .next (settle w s (execute w s)) := by
  obtain ⟨hl, hh⟩ := hr
  simp [tick, hl, hh, hf]

theorem tick_of_success {t : State} (hr : s.Running) (hf : s.fetch = some w) (hd : decodeWord w = .ok i)
    (ho : outcome i s = .success t) : tick s = .next ⟨.cont, t.advance.1, t.advance.2⟩ := by
  rw [tick_of_fetch hr hf, execute_of_decode s hd, ho]; rfl

theorem tick_of_invalid {c : Fault} (hr : s.Running) (hf : s.fetch = some w) (he : execute w s = .invalid c) :
    tick s = .next ⟨.stop c s.pc (some w), s.stop, false⟩ := by
  rw [tick_of_fetch hr hf, he]; rfl

theorem tick_of_wait (hr : s.Running) (hf : s.fetch = some w) (hd : decodeWord w = .ok i)
    (ho : outcome i s = .blocking) (hp : s.cfg.tickOnBlocking = false) : tick s = .next ⟨.cont, s, false⟩ := by
  rw [tick_of_fetch hr hf, execute_of_decode s hd, ho, settle, if_neg (by simp [hp])]

theorem tick_of_counted_wait (hr : s.Running) (hf : s.fetch = some w) (hd : decodeWord w = .ok i)
    (ho : outcome i s = .blocking) (hp : s.cfg.tickOnBlocking = true) :
    tick s = .next ⟨.cont, s.advance.1, s.advance.2⟩ := by
  rw [tick_of_fetch hr hf, execute_of_decode s hd, ho, settle, if_pos hp]

theorem tick_of_fetch_none (hr : s.Running) (hf : s.fetch = none) :
    tick s = .next ⟨.stop .fetchRange s.pc none, s.stop, false⟩ := by
  obtain ⟨hl, hh⟩ := hr
  simp [tick, hl, hh, hf]

theorem tick_of_halted (h : s.halted = true) : tick s = .next ⟨.halted, s, false⟩ := by
  simp [tick, h]

theorem tick_of_not_loaded (h : s.halted = false) (hl : s.loaded = false) : tick s = .next ⟨.notLoaded, s, false⟩ := by
  simp [tick, h, hl]

/-- The step keeps the state of the tick. -/
theorem step_of_tick {t : Tick} (h : tick s = .next t) : step s = .next t.state := by
  rw [step, h]; rfl

/-! ### Outcomes by their tag -/

/-- Everything an outcome can be: only FX0A blocks (R191), and FETCH_RANGE is no instruction's reason (R211). -/
theorem outcome_cases (i : Instr) (s : State) :
    (∃ t, outcome i s = .success t ∧ ¬ Blocks i s) ∨ (outcome i s = .blocking ∧ Blocks i s) ∨
    (∃ c, outcome i s = .invalid c ∧ c ≠ .fetchRange ∧ ¬ Blocks i s) := by
  cases i
  case ldVxK x =>
    cases hk : pressedKey s.key with
    | none =>
      exact .inr (.inl ⟨by simp only [outcome, ldVxKOutcome, hk, block], ⟨x, rfl⟩, (pressedKey_none _).mp hk⟩)
    | some k =>
      have ho : outcome (.ldVxK x) s = .success (s.setV x (BitVec.ofNat 8 k.val)).advancePc := by
        simp only [outcome, ldVxKOutcome, hk, succeed]
      exact .inl ⟨_, ho, fun ⟨_, hno⟩ => nomatch hk.symm.trans ((pressedKey_none _).mpr hno)⟩
  case ret | call | skp | sknp | ldF | ldB | storeRegs | loadRegs | drw =>
    simp only [outcome, retOutcome, callOutcome, skpOutcome, sknpOutcome, ldFOutcome, ldBOutcome, storeRegsOutcome,
      loadRegsOutcome, drwOutcome]
    repeat' split
    all_goals simp [raise, succeed, Blocks]
  all_goals exact .inl ⟨_, rfl, fun ⟨⟨_, hx⟩, _⟩ => nomatch hx⟩

theorem outcome_eq_blocking_iff (i : Instr) (s : State) : outcome i s = .blocking ↔ Blocks i s := by
  rcases outcome_cases i s with ⟨t, ho, hb⟩ | ⟨ho, hb⟩ | ⟨c, ho, -, hb⟩ <;> simp [ho, hb]

theorem outcome_ne_fetchRange (i : Instr) (s : State) : outcome i s ≠ .invalid .fetchRange := by
  rcases outcome_cases i s with ⟨t, ho, -⟩ | ⟨ho, -⟩ | ⟨c, ho, hc, -⟩ <;> simp [ho]
  exact hc

theorem outcome_eq_invalid_iff (i : Instr) (s : State) (c : Fault) :
    outcome i s = .invalid c ↔ exec i s = .fault c := by
  rw [exec_eq_outcome]
  cases outcome i s <;> simp

theorem exec_of_success {t : State} (h : outcome i s = .success t) : exec i s = .next t := by
  rw [exec_eq_outcome, h]; rfl

theorem exec_of_blocking (h : outcome i s = .blocking) : exec i s = .next s := by
  rw [exec_eq_outcome, h]; rfl

/-- What an answered next state says of the tag. -/
theorem outcome_of_exec {t : State} (h : exec i s = .next t) :
    outcome i s = .success t ∨ (Blocks i s ∧ t = s) := by
  rw [exec_eq_outcome] at h
  cases ho : outcome i s with
  | success t' => rw [ho] at h; exact .inl (congrArg _ (Host.Outcome.next.inj h))
  | blocking => rw [ho] at h; exact .inr ⟨(outcome_eq_blocking_iff i s).mp ho, (Host.Outcome.next.inj h).symm⟩
  | invalid => rw [ho] at h; exact nomatch h

/-- Settles O55: the tag decides the host's form, and a look at every instruction shows that FX0A alone blocks. -/
theorem outcomesAreTagged : Obligations.OutcomesAreTagged :=
  fun i s => ⟨outcome_eq_blocking_iff i s, exec_of_blocking, fun _ => exec_of_success, outcome_eq_invalid_iff i s⟩

/-! ### What a step does -/

/-- Settles O32: the tag of the outcome decides the tick. -/
theorem stepRunsTheDecodedInstruction : Obligations.StepRunsTheDecodedInstruction := by
  intro s i hr hpc hdec
  have hf := State.fetch_of_le hpc
  rw [decode] at hdec
  cases hd : decodeWord (wordOfBytes (s.byte s.pc.toNat) (s.byte (s.pc.toNat + 1))) with
  | error e => rw [hd] at hdec; exact nomatch hdec
  | ok j =>
    rw [hd] at hdec
    obtain rfl : j = i := congrArg Prod.fst (Except.ok.inj hdec)
    refine ⟨(encodeWord_of_decodeWord hd).1, fun c hc => ?invalid, fun t ht hno => ?next, fun hb hp => ?wait⟩
    case invalid =>
      have ho := (outcome_eq_invalid_iff j s c).mpr hc
      have ht := tick_of_invalid hr hf ((execute_of_decode s hd).trans ho)
      rw [hf]
      exact ⟨ht, step_of_tick ht⟩
    case next =>
      have ht : tick s = .next ⟨.cont, t.advance.1, t.advance.2⟩ := by
        rcases outcome_of_exec ht with ho | ⟨hb, rfl⟩
        · exact tick_of_success hr hf hd ho
        · exact tick_of_counted_wait hr hf hd ((outcome_eq_blocking_iff j t).mpr hb) (by simpa [hb] using hno)
      exact ⟨ht, step_of_tick ht⟩
    case wait =>
      have ht := tick_of_wait hr hf hd ((outcome_eq_blocking_iff j s).mpr hb) hp
      exact ⟨ht, step_of_tick ht⟩

/-- Settles O33: the four ticks that run no instruction. -/
theorem stepWithoutAnInstruction : Obligations.StepWithoutAnInstruction := by
  refine fun s => ⟨fun w e hr hf hd => ?_, fun hr hpc => ?_, fun h => ?_, fun h hl => ?_⟩
  · have ht := tick_of_invalid hr hf (execute_of_reject s hd)
    exact ⟨ht, step_of_tick ht⟩
  · have ht := tick_of_fetch_none hr (s.fetch_none.mpr hpc)
    exact ⟨ht, step_of_tick ht⟩
  · exact ⟨tick_of_halted h, step_of_tick (tick_of_halted h)⟩
  · exact ⟨tick_of_not_loaded h hl, step_of_tick (tick_of_not_loaded h hl)⟩

/-- Settles O35: each of the things a step can do answers a next state. -/
theorem stepAlwaysAnswers : Obligations.StepAlwaysAnswers := by
  intro s
  rcases step_cases s with h | ⟨-, h⟩ | ⟨_, _, _, -, -, -, -, h⟩ <;> exact ⟨_, h⟩

theorem execute_ne_fetchRange (w : Word) (s : State) : execute w s ≠ .invalid .fetchRange := by
  cases hd : decodeWord w with
  | error e => rw [execute_of_reject s hd]; exact fun h => nomatch h
  | ok i => rw [execute_of_decode s hd]; exact outcome_ne_fetchRange i s

/-- Settles O34: of the ticks, the two that report Stop. -/
theorem invalidIsPrecise : Obligations.InvalidIsPrecise := by
  intro s t c p w b h
  rcases tick_cases s with ⟨-, h'⟩ | ⟨-, -, h'⟩ | ⟨hr, hf, h'⟩ | ⟨v, d, hr, hf, he, h'⟩ | ⟨_, _, -, -, -, -, -, h'⟩ |
    ⟨_, _, _, -, -, -, -, -, h'⟩
  case inr.inr.inl =>
    cases Host.Outcome.next.inj (h'.symm.trans h)
    exact ⟨rfl, hr, rfl, hf.symm, rfl, by simp [s.fetch_none.mp hf]⟩
  case inr.inr.inr.inl =>
    cases Host.Outcome.next.inj (h'.symm.trans h)
    have hc : c ≠ .fetchRange := fun hc => execute_ne_fetchRange v s (hc ▸ he)
    have hle := (s.fetch_some v hf).1
    exact ⟨rfl, hr, rfl, hf.symm, rfl, by simp [hc]; omega⟩
  all_goals cases Host.Outcome.next.inj (h'.symm.trans h)

end Sys2Proof.Machine
end

section
/-! PROOFS. The cycle counter and the timers (spec/60_exceptions.md, 3. Timers): `advance` in closed form, one call and
any number of them. -/

namespace Sys2Proof.Machine

/-- Settles O36: a call inside a period, and the two calls that end one. -/
theorem timerTickEffects : Obligations.TimerTickEffects := by
  refine fun s => ⟨s.advance_frame, fun hlt => ?_, fun hge => ?_⟩
  all_goals rcases s.advance_cases with ⟨h, he⟩ | ⟨h, hst, he⟩ | ⟨h, hst, he⟩
  case refine_1.inl => rw [he]; exact ⟨rfl, rfl, rfl, rfl⟩
  case refine_2.inr.inl =>
    rw [he]
    exact ⟨rfl, toNat_timerDown s.dt, by simp only [State.setDt_st, State.setCc_st]; omega, by simp [hst]⟩
  case refine_2.inr.inr =>
    have hdown := toNat_timerDown s.st
    rw [if_pos hst] at hdown
    rw [he]
    exact ⟨rfl, toNat_timerDown s.dt, hdown, by simp [hst]⟩
  all_goals omega

/-- The tick at the end of a period takes one off a timer that is not 0. -/
theorem State.toNat_timers_advance (s : State) (h : s.cfg.cyclesPerTick ≤ s.cc + 1) :
    s.advance.1.dt.toNat = s.dt.toNat - 1 ∧ s.advance.1.st.toNat = s.st.toNat - 1 := by
  obtain ⟨-, -, hend⟩ := timerTickEffects s
  obtain ⟨-, hdt, hst, -⟩ := hend h
  exact ⟨hdt, hst⟩

variable {s t : State} {k b : Nat}

/-- `t` is where the counter and the timers of `s` stand after `k` calls of `advance` that beeped `b` times (R221,
R222): `cc + k` steps are `(cc + k) / N` whole periods. -/
def Cadence (s : State) (k b : Nat) (t : State) : Prop :=
  t.cfg = s.cfg ∧ t.cc = (s.cc + k) % s.cfg.cyclesPerTick ∧
  t.dt.toNat = s.dt.toNat - (s.cc + k) / s.cfg.cyclesPerTick ∧
  t.st.toNat = s.st.toNat - (s.cc + k) / s.cfg.cyclesPerTick ∧
  b = min s.st.toNat ((s.cc + k) / s.cfg.cyclesPerTick)

theorem cadence_start (h : s.cc < s.cfg.cyclesPerTick) : Cadence s 0 0 s := by
  refine ⟨rfl, ?_, ?_, ?_, ?_⟩ <;> simp [Nat.mod_eq_of_lt h, Nat.div_eq_of_lt h]

/-- One more step: inside a period, or the last of one. -/
theorem div_mod_succ (m n : Nat) (hn : 0 < n) :
    (m % n + 1 < n ∧ (m + 1) % n = m % n + 1 ∧ (m + 1) / n = m / n) ∨
    (m % n + 1 = n ∧ (m + 1) % n = 0 ∧ (m + 1) / n = m / n + 1) := by
  have hm := Nat.div_add_mod m n
  rcases Nat.lt_or_eq_of_le (Nat.mod_lt m hn : m % n + 1 ≤ n) with h | h
  · obtain ⟨hd, hr⟩ := (Nat.div_mod_unique hn).mpr ⟨(by omega : m % n + 1 + n * (m / n) = m + 1), h⟩
    exact .inl ⟨h, hr, hd⟩
  · obtain ⟨hd, hr⟩ := (Nat.div_mod_unique hn).mpr ⟨(by rw [Nat.mul_add]; omega : 0 + n * (m / n + 1) = m + 1), hn⟩
    exact .inr ⟨h, hr, hd⟩

/-- A further call of `advance`. -/
theorem Cadence.advance (h : Cadence s k b t) (hN : 0 < s.cfg.cyclesPerTick) :
    Cadence s (k + 1) (b + if t.advance.2 then 1 else 0) t.advance.1 := by
  obtain ⟨hcfg, hcc, hdt, hst, hb⟩ := h
  obtain ⟨-, hin, hend⟩ := timerTickEffects t
  rw [hcfg, hcc] at hin hend
  rcases div_mod_succ (s.cc + k) s.cfg.cyclesPerTick hN with ⟨hlt, hmod, hdiv⟩ | ⟨heq, hmod, hdiv⟩
  · obtain ⟨hcc', hdt', hst', hbeep⟩ := hin hlt
    refine ⟨t.advance_cfg.trans hcfg, ?_, ?_, ?_, ?_⟩ <;> rw [← Nat.add_assoc]
    · rw [hcc', hmod]
    · rw [hdt', hdiv, hdt]
    · rw [hst', hdiv, hst]
    · rw [hbeep, hdiv, hb]; rfl
  · obtain ⟨hcc', hdt', hst', hbeep⟩ := hend heq.ge
    refine ⟨t.advance_cfg.trans hcfg, ?_, ?_, ?_, ?_⟩ <;> rw [← Nat.add_assoc]
    · rw [hcc', hmod]
    · rw [hdt', hdiv, hdt]; omega
    · rw [hst', hdiv, hst]; omega
    · rw [hdiv, hb]
      simp only [hbeep, hst]
      split <;> omega

theorem cadence_advanceBy (k : Nat) (h : s.cc < s.cfg.cyclesPerTick) :
    Cadence s k (advanceBy k s).2 (advanceBy k s).1 := by
  induction k with
  | zero => exact cadence_start h
  | succ k ih => exact ih.advance (Nat.zero_lt_of_lt h)

/-- Settles O37: the cadence of `k` calls. -/
theorem timerCadence : Obligations.TimerCadence := fun k _ h => (cadence_advanceBy k h).2

end Sys2Proof.Machine
end

section
/-! PROOFS. Family F (spec/46_fx.md) but for FX07: the timers, the key wait, `I`, and the transfers. -/

namespace Sys2Proof.Machine

/-! ### The timers -/

/-- Settles O23: the instruction's next state has the timer at VX, and it is that value the tick counts down. -/
theorem timersAreSet : Obligations.TimersAreSet :=
  fun x s =>
    ⟨⟨_, exec_ldDTVx s x, rfl, rfl, (s.setDt_frame _).setPc _,
      fun h => (((s.setDt (s.v x)).setPc (s.pc + 2)).toNat_timers_advance h).1⟩,
    ⟨_, exec_ldSTVx s x, rfl, rfl, (s.setSt_frame _).setPc _,
      fun h => (((s.setSt (s.v x)).setPc (s.pc + 2)).toNat_timers_advance h).2⟩⟩

/-! ### The key wait -/

/-- FX0A takes the highest pressed key. -/
theorem exec_ldVxK_of_key {x k : Reg} {s : State} (hk : s.key[k.val] = true)
    (habove : ∀ j : Reg, k < j → s.key[j.val] = false) :
    exec (.ldVxK x) s = .next ((s.setV x (BitVec.ofNat 8 k.val)).setPc (s.pc + 2)) := by
  rcases execLdVxK_cases s x with ⟨hno, -⟩ | ⟨j, hj, hjabove, he⟩
  · exact absurd hk (by simp [hno k])
  · obtain hlt | rfl | hgt := lt_trichotomy j k
    · exact absurd hk (by simp [hjabove k hlt])
    · exact he
    · exact absurd hj (by simp [habove j hgt])

/-- Settles O24: the scan's answer, and with none the two ticks a Blocking can be. -/
theorem keyWaitTakesTheHighestKey : Obligations.KeyWaitTakesTheHighestKey := by
  refine fun x s => ⟨fun k hk habove => ?_, fun hno => ?_⟩
  · refine (completes_of_setV (exec_ldVxK_of_key hk habove)).imp fun t ⟨hv, hrest⟩ => ⟨?_, hrest⟩
    rw [hv, BitVec.toNat_ofNat]
    omega
  · have ho := (outcome_eq_blocking_iff (.ldVxK x) s).mpr ⟨⟨x, rfl⟩, hno⟩
    exact ⟨ho, exec_of_blocking ho, fun w hr hf hd => ⟨tick_of_wait hr hf hd ho, tick_of_counted_wait hr hf hd ho⟩⟩

/-! ### The index register -/

/-- Settles O25: a sum of words wraps at 2^16. -/
theorem addIndexWrapsWithoutFlag : Obligations.AddIndexWrapsWithoutFlag := by
  refine fun x s => ⟨_, exec_addI s x, ?_, rfl, s.setI_setPc_frame _ _⟩
  rw [State.setPc_I, State.setI_I, BitVec.toNat_add, toNat_byteWord]

theorem exec_ldF_of_digit {x : Reg} {s : State} (h : (s.v x).toNat ≤ 15) :
    exec (.ldF x) s = .next ((s.setI (BitVec.ofNat 16 ((s.v x).toNat * 5))).setPc (s.pc + 2)) := by
  rcases execLdF_cases s x with ⟨hgt, -⟩ | ⟨-, he⟩
  · omega
  · exact he

theorem exec_ldF_fault {x : Reg} {s : State} (h : 15 < (s.v x).toNat) : exec (.ldF x) s = .fault .fontRange := by
  rcases execLdF_cases s x with ⟨-, he⟩ | ⟨hle, -⟩
  · exact he
  · omega

/-- Settles O26: five bytes a glyph, and the last glyph ends below 80. -/
theorem glyphAddressIsFiveTimesVx : Obligations.GlyphAddressIsFiveTimesVx := by
  refine fun x s => ⟨fun h => ⟨_, exec_ldF_of_digit h, ?_⟩, exec_ldF_fault⟩
  have hI : (BitVec.ofNat 16 ((s.v x).toNat * 5)).toNat = 5 * (s.v x).toNat := by rw [BitVec.toNat_ofNat]; omega
  exact ⟨hI, by rw [State.setPc_I, State.setI_I, hI]; omega, rfl, s.setI_setPc_frame _ _⟩

/-! ### Transfers -/

variable {x : Reg} {s t : State}

theorem exec_ldB_of_le (h : s.I.toNat + 2 ≤ 0xFFF) :
    exec (.ldB x) s = .next ((s.setBytes s.I.toNat (decimalDigits (s.v x))).setPc (s.pc + 2)) := by
  rcases execLdB_cases s x with ⟨hgt, -⟩ | ⟨-, he⟩
  · omega
  · exact he

theorem exec_ldB_fault (h : 0xFFF < s.I.toNat + 2) : exec (.ldB x) s = .fault .memRange := by
  rcases execLdB_cases s x with ⟨-, he⟩ | ⟨hle, -⟩
  · exact he
  · simp only [memSize] at hle; omega

theorem exec_storeRegs_of_le (h : s.I.toNat + x.val ≤ 0xFFF) :
    exec (.storeRegs x) s = .next ((s.setBytes s.I.toNat (regsUpTo s x)).setPc (s.pc + 2)) := by
  rcases execStoreRegs_cases s x with ⟨hgt, -⟩ | ⟨-, he⟩
  · omega
  · exact he

theorem exec_storeRegs_fault (h : 0xFFF < s.I.toNat + x.val) : exec (.storeRegs x) s = .fault .memRange := by
  rcases execStoreRegs_cases s x with ⟨-, he⟩ | ⟨hle, -⟩
  · exact he
  · simp only [memSize] at hle; omega

theorem exec_loadRegs_of_le (h : s.I.toNat + x.val ≤ 0xFFF) :
    exec (.loadRegs x) s = .next ((s.setRegs 0 (s.bytes s.I.toNat (x.val + 1))).setPc (s.pc + 2)) := by
  rcases execLoadRegs_cases s x with ⟨hgt, -⟩ | ⟨-, he⟩
  · omega
  · rw [State.advancePc_eq, State.setRegs_pc] at he
    exact he

theorem exec_loadRegs_fault (h : 0xFFF < s.I.toNat + x.val) : exec (.loadRegs x) s = .fault .memRange := by
  rcases execLoadRegs_cases s x with ⟨-, he⟩ | ⟨hle, -⟩
  · exact he
  · simp only [memSize] at hle; omega

/-- A block of bytes stored inside memory reads back byte by byte. -/
theorem State.byte_setBytes_at (s : State) (base : Nat) (bs : List Byte) (k : Nat) (hk : k < bs.length)
    (hr : base + bs.length ≤ memSize) : (s.setBytes base bs).byte (base + k) = bs[k] := by
  rw [State.byte_setBytes s base bs _ hr, dif_pos (by omega)]
  simp only [Nat.add_sub_cancel_left]

/-- Settles O27: the three stored bytes are the digits of one decimal expansion. -/
theorem bcdStoresThreeDigits : Obligations.BcdStoresThreeDigits := by
  refine fun x s => ⟨fun h => ⟨_, exec_ldB_of_le h, ?_⟩, exec_ldB_fault⟩
  have hr : s.I.toNat + (decimalDigits (s.v x)).length ≤ memSize := by
    simp only [decimalDigits, List.length_cons, List.length_nil, memSize]; omega
  have h0 := s.byte_setBytes_at s.I.toNat _ 0 (by simp [decimalDigits]) hr
  have h1 := s.byte_setBytes_at s.I.toNat _ 1 (by simp [decimalDigits]) hr
  have h2 := s.byte_setBytes_at s.I.toNat _ 2 (by simp [decimalDigits]) hr
  simp only [State.byte_setPc]
  rw [Nat.add_zero] at h0
  rw [h0, h1, h2]
  simp only [decimalDigits, List.getElem_cons_zero, List.getElem_cons_succ, BitVec.toNat_ofNat]
  exact ⟨by omega, by omega, by omega, by omega, fun a ha => s.byte_setBytes_other _ _ a ha, rfl,
    (s.setBytes_frame _ _).setPc _⟩

/-- Settles O28: the block stored is V0 to VX, V0 first. -/
theorem registersAreStored : Obligations.RegistersAreStored := by
  refine fun x s => ⟨fun h => ⟨_, exec_storeRegs_of_le h, fun k hk => ?_, fun a ha => ?_, rfl,
    (s.setBytes_frame _ _).setPc _⟩, exec_storeRegs_fault⟩
  all_goals have hlen := length_regsUpTo s x
  · have hk' : k.val < (regsUpTo s x).length := by have : k.val ≤ x.val := hk; omega
    rw [State.byte_setPc, s.byte_setBytes_at _ _ k.val hk' (by simp only [memSize]; omega), getElem_regsUpTo]
  · exact s.byte_setBytes_other _ _ a (by rwa [hlen])

/-- Settles O29: the block loaded is the bytes from `I` on, as many as there are registers up to VX. -/
theorem registersAreLoaded : Obligations.RegistersAreLoaded := by
  refine fun x s => ⟨fun h => ⟨_, exec_loadRegs_of_le h, fun k hk => ?_, fun k hk => ?_, rfl,
    (s.setRegs_frame _ _).setPc _⟩, exec_loadRegs_fault⟩
  all_goals
    have hlen := s.length_bytes s.I.toNat (x.val + 1)
    rw [State.v_setPc, State.v_setRegs]
  · have hk' : k.val ≤ x.val := hk
    rw [dif_pos (by omega), State.getElem_bytes, Nat.sub_zero]
  · have hk' : x.val < k.val := hk
    rw [dif_neg (by omega)]

/-- Settles O30: memory and `I` are between as the store left them, so the load reads the bytes stored. -/
theorem storedRegistersLoadBack : Obligations.StoredRegistersLoadBack := by
  intro x s t u hstore hbetween
  obtain ⟨hdo, hfault⟩ := registersAreStored x s
  have hle : s.I.toNat + x.val ≤ 0xFFF := by
    by_contra hgt
    exact nomatch (hfault (by omega)).symm.trans hstore
  obtain ⟨hstored, -, -, hframe⟩ := (hdo hle).of_next hstore
  have hI : u.I = s.I := (hbetween .I (by decide)).trans (hframe .I (by decide))
  refine ((registersAreLoaded x u).1 (by rwa [hI])).imp fun r ⟨hloaded, _⟩ k hk => ?_
  rw [hloaded k hk, hI, hbetween .mem (by decide) _, hstored k hk]

end Sys2Proof.Machine
end

section
/-! PROOFS. What every instruction leaves alone (spec/10_state.md, tables T3 and T4), put together from what each one
does; and what a step therefore leaves alone. -/

namespace Sys2Proof.Machine

variable {s t u : State} {i : Instr}

/-! ### The next states of the instructions that can end in more than one way -/

theorem ret_next (h : exec .ret s = .next t) :
    ∃ j : Fin 16, s.sp.val = j.val + 1 ∧ t = { s with sp := j.castSucc, pc := s.stack[j.val] + 2 } := by
  rcases Nat.eq_zero_or_pos s.sp.val with h0 | hpos
  · exact nomatch (exec_ret_empty s h0).symm.trans h
  · have hj : s.sp.val = (⟨s.sp.val - 1, by omega⟩ : Fin 16).val + 1 := by simp only; omega
    exact ⟨_, hj, (Host.Outcome.next.inj ((exec_ret_pop s _ hj).symm.trans h)).symm⟩

theorem call_next {n : Addr} (h : exec (.call n) s = .next t) : ∃ hsp : s.sp.val < 16,
    t = { s with stack := s.stack.set s.sp.val s.pc, sp := ⟨s.sp.val + 1, by omega⟩, pc := addrWord n } := by
  rcases execCall_cases s n with ⟨-, he⟩ | ⟨hsp, he⟩
  · exact nomatch he.symm.trans h
  · exact ⟨hsp, (Host.Outcome.next.inj (he.symm.trans h)).symm⟩

theorem skp_next {x : Reg} (h : exec (.skp x) s = .next t) : ∃ c, t = s.skipIf c := by
  rcases execSkp_cases s x with ⟨-, he⟩ | ⟨k, -, he⟩
  · exact nomatch he.symm.trans h
  · exact ⟨_, (Host.Outcome.next.inj (he.symm.trans h)).symm⟩

theorem sknp_next {x : Reg} (h : exec (.sknp x) s = .next t) : ∃ c, t = s.skipIf c := by
  rcases execSknp_cases s x with ⟨-, he⟩ | ⟨k, -, he⟩
  · exact nomatch he.symm.trans h
  · exact ⟨_, (Host.Outcome.next.inj (he.symm.trans h)).symm⟩

theorem ldVxK_next {x : Reg} (h : exec (.ldVxK x) s = .next t) : t = s ∨ ∃ b, t = (s.setV x b).setPc (s.pc + 2) := by
  rcases execLdVxK_cases s x with ⟨-, he⟩ | ⟨_, -, -, he⟩
  · exact .inl (Host.Outcome.next.inj (he.symm.trans h)).symm
  · exact .inr ⟨_, (Host.Outcome.next.inj (he.symm.trans h)).symm⟩

theorem ldF_next {x : Reg} (h : exec (.ldF x) s = .next t) : ∃ w, t = (s.setI w).setPc (s.pc + 2) := by
  rcases execLdF_cases s x with ⟨-, he⟩ | ⟨-, he⟩
  · exact nomatch he.symm.trans h
  · exact ⟨_, (Host.Outcome.next.inj (he.symm.trans h)).symm⟩

theorem ldB_next {x : Reg} (h : exec (.ldB x) s = .next t) :
    t = (s.setBytes s.I.toNat (decimalDigits (s.v x))).setPc (s.pc + 2) := by
  rcases execLdB_cases s x with ⟨-, he⟩ | ⟨-, he⟩
  · exact nomatch he.symm.trans h
  · exact (Host.Outcome.next.inj (he.symm.trans h)).symm

theorem storeRegs_next {x : Reg} (h : exec (.storeRegs x) s = .next t) :
    t = (s.setBytes s.I.toNat (regsUpTo s x)).setPc (s.pc + 2) := by
  rcases execStoreRegs_cases s x with ⟨-, he⟩ | ⟨-, he⟩
  · exact nomatch he.symm.trans h
  · exact (Host.Outcome.next.inj (he.symm.trans h)).symm

theorem loadRegs_le {x : Reg} (h : exec (.loadRegs x) s = .next t) : s.I.toNat + x.val ≤ 0xFFF := by
  by_contra hgt
  exact nomatch (exec_loadRegs_fault (by omega)).symm.trans h

/-! ### What an instruction writes -/

theorem Frame.writes {l : List Part} (h : Frame l s t) (hV : Part.V ∉ l) (written : List Reg) :
    Frame l s t ∧ OtherRegsSame written s t := ⟨h, h.otherRegsSame hV written⟩

/-- A completed instruction whose next state has a frame without the registers. -/
theorem writes_of_frame {l : List Part} (h : exec i s = .next t) (he : exec i s = .next u) (hframe : Frame l s u)
    (hV : Part.V ∉ l) (written : List Reg) : Frame l s t ∧ OtherRegsSame written s t := by
  obtain rfl := Host.Outcome.next.inj (he.symm.trans h)
  exact hframe.writes hV written

/-- A completed instruction that writes VX and `pc`. -/
theorem writes_of_setV {x : Reg} {r : Byte} (h : exec i s = .next t)
    (he : exec i s = .next ((s.setV x r).setPc (s.pc + 2))) : Frame [.V, .pc] s t ∧ OtherRegsSame [x] s t := by
  obtain ⟨-, hregs, -, hframe⟩ := (completes_of_setV he).of_next h
  exact ⟨hframe, hregs⟩

/-- A completed instruction that writes VX, VF and `pc`. -/
theorem writes_of_setVFlag {x : Reg} {r f : Byte} (h : exec i s = .next t)
    (he : exec i s = .next (((s.setV x r).setV Reg.vf f).setPc (s.pc + 2))) :
    Frame [.V, .pc] s t ∧ OtherRegsSame [x, Reg.vf] s t := by
  obtain ⟨-, -, hregs, -, hframe⟩ := (completes_of_setVFlag he).of_next h
  exact ⟨hframe, hregs⟩

theorem ret_frame (h : exec .ret s = .next t) : Frame [.sp, .pc] s t := by
  obtain ⟨-, hret⟩ := retGoesPastTheCall
  obtain ⟨-, hpop, -⟩ := hret s
  obtain ⟨j, hj, -⟩ := ret_next h
  obtain ⟨-, -, hframe, -⟩ := (hpop j hj).of_next h
  exact hframe

theorem call_frame {n : Addr} (h : exec (.call n) s = .next t) : Frame [.stack, .sp, .pc] s t := by
  obtain ⟨-, hcall⟩ := callPushesItsOwnAddress
  obtain ⟨-, hroom, -⟩ := hcall n s
  obtain ⟨hsp, -⟩ := call_next h
  obtain ⟨-, -, -, -, hframe⟩ := (hroom hsp).of_next h
  exact hframe

theorem rnd_writes {x : Reg} {nn : Byte} (h : exec (.rnd x nn) s = .next t) :
    Frame [.V, .pc, .draws] s t ∧ OtherRegsSame [x] s t := by
  obtain ⟨u, hu, -, hregs, -, -, hframe⟩ := rndWith_spec (Config.randomByte s.draws) x nn s
  obtain rfl := Host.Outcome.next.inj ((exec_of_success (i := .rnd x nn) hu).symm.trans h)
  exact ⟨hframe, hregs⟩

theorem drw_writes {x y : Reg} {n : RowCount} (h : exec (.drw x y n) s = .next t) :
    Frame [.V, .fb, .dirty, .pc] s t ∧ OtherRegsSame [Reg.vf] s t := by
  obtain ⟨hrange, hedge⟩ := drawOk_of_next h
  obtain ⟨-, -, -, -, hregs, -, hframe⟩ := (drawXorsTheSprite x y n s hrange hedge).of_next h
  exact ⟨hframe, hregs⟩

theorem ldVxK_writes {x : Reg} (h : exec (.ldVxK x) s = .next t) : Frame [.V, .pc] s t ∧ OtherRegsSame [x] s t := by
  obtain rfl | ⟨b, rfl⟩ := ldVxK_next h
  · exact ⟨Frame.refl _ _, fun _ _ => rfl⟩
  · exact writes_of_setV h h

theorem loadRegs_writes {x : Reg} (h : exec (.loadRegs x) s = .next t) :
    Frame [.V, .pc] s t ∧ OtherRegsSame ((List.finRange 16).filter fun k => k ≤ x) s t := by
  obtain ⟨-, habove, -, hframe⟩ := ((registersAreLoaded x s).1 (loadRegs_le h)).of_next h
  exact ⟨hframe, fun k hk => habove k (by simpa using hk)⟩

/-- Settles O38: instruction by instruction. -/
theorem instructionsWriteOnlyTheirParts : Obligations.InstructionsWriteOnlyTheirParts := by
  intro i s t h
  cases i with
  | cls => exact writes_of_frame h (exec_cls s) ((s.setScreen_frame _).setPc _) (by decide) _
  | ret => exact (ret_frame h).writes (by decide) _
  | sys n => exact writes_of_frame h (exec_sys s n) (s.setPc_frame _) (by decide) _
  | jp n => exact writes_of_frame h (exec_jp s n) (s.setPc_frame _) (by decide) _
  | call n => exact (call_frame h).writes (by decide) _
  | seImm x nn => exact writes_of_frame h (exec_seImm s x nn) (s.setPc_frame _) (by decide) _
  | sneImm x nn => exact writes_of_frame h (exec_sneImm s x nn) (s.setPc_frame _) (by decide) _
  | seReg x y => exact writes_of_frame h (exec_seReg s x y) (s.setPc_frame _) (by decide) _
  | ldImm x nn => exact writes_of_setV h (exec_ldImm s x nn)
  | addImm x nn => exact writes_of_setV h (exec_addImm s x nn)
  | ldReg x y => exact writes_of_setV h (exec_ldReg s x y)
  | orReg x y => exact writes_of_setV h (exec_orReg s x y)
  | andReg x y => exact writes_of_setV h (exec_andReg s x y)
  | xorReg x y => exact writes_of_setV h (exec_xorReg s x y)
  | addReg x y => exact writes_of_setVFlag h (exec_addReg s x y)
  | subReg x y => exact writes_of_setVFlag h (exec_subReg s x y)
  | shr x y => exact writes_of_setV h (exec_shr s x y)
  | subn x y => exact writes_of_setVFlag h (exec_subn s x y)
  | shl x y => exact writes_of_setV h (exec_shl s x y)
  | sneReg x y => exact writes_of_frame h (exec_sneReg s x y) (s.setPc_frame _) (by decide) _
  | ldI n => exact writes_of_frame h (exec_ldI s n) (s.setI_setPc_frame _ _) (by decide) _
  | jpV0 n => exact writes_of_frame h (exec_jpV0 s n) (s.setPc_frame _) (by decide) _
  | rnd x nn => exact rnd_writes h
  | drw x y n => exact drw_writes h
  | skp x =>
    obtain ⟨c, rfl⟩ := skp_next h
    exact (s.setPc_frame _).writes (by decide) _
  | sknp x =>
    obtain ⟨c, rfl⟩ := sknp_next h
    exact (s.setPc_frame _).writes (by decide) _
  | ldVxDT x => exact writes_of_setV h (exec_ldVxDT s x)
  | ldVxK x => exact ldVxK_writes h
  | ldDTVx x => exact writes_of_frame h (exec_ldDTVx s x) ((s.setDt_frame _).setPc _) (by decide) _
  | ldSTVx x => exact writes_of_frame h (exec_ldSTVx s x) ((s.setSt_frame _).setPc _) (by decide) _
  | addI x => exact writes_of_frame h (exec_addI s x) (s.setI_setPc_frame _ _) (by decide) _
  | ldF x =>
    obtain ⟨w, rfl⟩ := ldF_next h
    exact (s.setI_setPc_frame w _).writes (by decide) _
  | ldB x =>
    obtain rfl := ldB_next h
    exact ((s.setBytes_frame _ _).setPc _).writes (by decide) _
  | storeRegs x =>
    obtain rfl := storeRegs_next h
    exact ((s.setBytes_frame _ _).setPc _).writes (by decide) _
  | loadRegs x => exact loadRegs_writes h

theorem exec_frame (h : exec i s = .next t) : Frame (partsWrittenBy i) s t :=
  (instructionsWriteOnlyTheirParts i s t h).1

/-! ### What a step leaves alone -/

/-- The parts no instruction writes: those of the host, the halted latch and the cycle counter. -/
theorem not_mem_partsWrittenBy (i : Instr) :
    ∀ p ∈ [Part.key, .loaded, .cfg, .halted, .cc], p ∉ partsWrittenBy i := by
  cases i <;> simp [partsWrittenBy]

/-- Only FX15 and FX18 write a timer (R34, R35). -/
theorem timers_not_mem_partsWrittenBy (h : setsTimer i = false) : .dt ∉ partsWrittenBy i ∧ .st ∉ partsWrittenBy i := by
  cases i <;> simp_all [setsTimer, partsWrittenBy]

theorem exec_same (p : Part) (hp : p ∈ [Part.key, .loaded, .cfg, .halted, .cc]) (h : exec i s = .next t) :
    p.same s t := exec_frame h p (not_mem_partsWrittenBy i p hp)

/-- Settles O39: neither the halted latch nor an instruction nor `advance` writes the host's parts. -/
theorem stepsLeaveTheHostsStateAlone : Obligations.StepsLeaveTheHostsStateAlone := by
  intro s t h
  have hhalted : s.halted = true → t = s := fun hh =>
    (Host.Outcome.next.inj ((step_of_tick (tick_of_halted hh)).symm.trans h)).symm
  rcases step_cases s with he | ⟨-, he⟩ | ⟨_, i, s1, -, -, -, hx, he⟩
  all_goals obtain rfl := Host.Outcome.next.inj (he.symm.trans h)
  · exact ⟨rfl, rfl, rfl, hhalted⟩
  · exact ⟨rfl, rfl, rfl, hhalted⟩
  · exact ⟨(s1.advance_frame .key (by decide)).trans (exec_same .key (by decide) hx),
      (s1.advance_frame .loaded (by decide)).trans (exec_same .loaded (by decide) hx),
      s1.advance_cfg.trans (exec_same .cfg (by decide) hx), hhalted⟩

/-! ### Runs of ticks -/

theorem running_of_tick_cont {b : Bool} (h : tick s = .next ⟨.cont, t, b⟩) : s.Running := by
  rcases tick_cases s with ⟨-, h'⟩ | ⟨-, -, h'⟩ | ⟨hr, -⟩ | ⟨_, _, hr, -⟩ | ⟨_, _, hr, -⟩ | ⟨_, _, _, hr, -⟩
  case inl | inr.inl => cases Host.Outcome.next.inj (h'.symm.trans h)
  all_goals exact hr

/-- A tick that continues after a Success ends in `advance` of the instruction's state. -/
theorem tick_cont_of_success {w : Word} {b : Bool} (hf : s.fetch = some w) (hd : decodeWord w = .ok i)
    (ho : outcome i s = .success t) (h : tick s = .next ⟨.cont, u, b⟩) : u = t.advance.1 ∧ b = t.advance.2 := by
  have h' := tick_of_success (running_of_tick_cont h) hf hd ho
  cases Host.Outcome.next.inj (h'.symm.trans h)
  exact ⟨rfl, rfl⟩

theorem tick_cont_of_wait {w : Word} {b : Bool} (hf : s.fetch = some w) (hd : decodeWord w = .ok i)
    (ho : outcome i s = .blocking) (hp : s.cfg.tickOnBlocking = false) (h : tick s = .next ⟨.cont, u, b⟩) :
    u = s ∧ b = false := by
  have h' := tick_of_wait (running_of_tick_cont h) hf hd ho hp
  cases Host.Outcome.next.inj (h'.symm.trans h)
  exact ⟨rfl, rfl⟩

/-- An instruction that sets no timer leaves the cadence where it is. -/
theorem Cadence.of_exec {k b : Nat} (h : Cadence s k b t) (ht : setsTimer i = false) (hx : exec i t = .next u) :
    Cadence s k b u := by
  obtain ⟨hndt, hnst⟩ := timers_not_mem_partsWrittenBy ht
  have hdt : u.dt = t.dt := exec_frame hx .dt hndt
  have hst : u.st = t.st := exec_frame hx .st hnst
  have hcc : u.cc = t.cc := exec_same .cc (by decide) hx
  have hcfg : u.cfg = t.cfg := exec_same .cfg (by decide) hx
  rw [Cadence, hdt, hst, hcc, hcfg]
  exact h

/-- Settles O54: by induction over the run, each Success being one more call of `advance`. -/
theorem runsKeepTheTimerCadence : Obligations.RunsKeepTheTimerCadence := by
  intro k b s t hrun hN
  change Cadence s k b t
  induction hrun with
  | start => exact cadence_start hN
  | success _ hf hd ht ho hs ih =>
    obtain ⟨rfl, rfl⟩ := tick_cont_of_success hf hd ho hs
    exact (ih.of_exec ht (exec_of_success ho)).advance (Nat.zero_lt_of_lt hN)
  | wait _ hf hd ho hp hs ih =>
    obtain ⟨rfl, rfl⟩ := tick_cont_of_wait hf hd ho hp hs
    exact ih

end Sys2Proof.Machine
end

section
/-! PROOFS. The invariant (spec/10_state.md R26, R27, R36): an instruction that was fetched keeps it, `advance` keeps
it, the host's operations keep it, and so every reached state has it. -/

namespace Sys2Proof.Machine

variable {s t : State} {i : Instr}

/-! ### Where an instruction can leave `pc` -/

/-- The values an instruction can leave in `pc` (table T4); `stay` is FX0A waiting. -/
inductive PcMove (s : State) : Word → Prop where
  | stay : PcMove s s.pc
  | next : PcMove s (s.pc + 2)
  | skip (c : Bool) : PcMove s (if c then s.pc + 4 else s.pc + 2)
  | jump (n : Addr) : PcMove s (addrWord n)
  | indexed (n : Addr) (b : Byte) : PcMove s (addrWord n + byteWord b)
  | ret (j : Fin 16) : PcMove s (s.stack[j.val] + 2)

theorem exec_pcMove (h : exec i s = .next t) : PcMove s t.pc := by
  cases i
  case ret =>
    obtain ⟨j, -, rfl⟩ := ret_next h
    exact .ret j
  case call n =>
    obtain ⟨-, rfl⟩ := call_next h
    exact .jump n
  case sys n | jp n =>
    obtain rfl := Host.Outcome.next.inj h
    exact .jump n
  case jpV0 n =>
    obtain rfl := Host.Outcome.next.inj h
    exact .indexed n (s.v 0)
  case seImm | sneImm | seReg | sneReg =>
    obtain rfl := Host.Outcome.next.inj h
    exact .skip _
  case skp =>
    obtain ⟨c, rfl⟩ := skp_next h
    exact .skip c
  case sknp =>
    obtain ⟨c, rfl⟩ := sknp_next h
    exact .skip c
  case ldVxK =>
    obtain rfl | ⟨b, rfl⟩ := ldVxK_next h
    · exact .stay
    · exact .next
  case drw =>
    obtain rfl := Host.Outcome.next.inj ((exec_drw_of_drawOk (drawOk_of_next h)).symm.trans h)
    exact .next
  case ldF =>
    obtain ⟨w, rfl⟩ := ldF_next h
    exact .next
  case ldB =>
    obtain rfl := ldB_next h
    exact .next
  case storeRegs =>
    obtain rfl := storeRegs_next h
    exact .next
  case loadRegs =>
    obtain rfl := Host.Outcome.next.inj ((exec_loadRegs_of_le (loadRegs_le h)).symm.trans h)
    exact .next
  all_goals
    obtain rfl := Host.Outcome.next.inj h
    exact .next

/-- "The largest value an instruction can write is 0xFFF + 0xFF = 0x10FE" (R26), by a machine that could fetch. -/
theorem PcMove.le {w : Word} (h : PcMove s w) (hpc : s.pc.toNat ≤ 0xFFE)
    (hstack : ∀ j : Fin 16, s.stack[j.val].toNat ≤ 0xFFE) : w.toNat ≤ 0x10FE := by
  have h2 (a : Word) : (a + 2).toNat = (a.toNat + 2) % 2 ^ 16 := BitVec.toNat_add a 2
  have h4 (a : Word) : (a + 4).toNat = (a.toNat + 4) % 2 ^ 16 := BitVec.toNat_add a 4
  cases h with
  | stay => omega
  | next => rw [h2]; omega
  | skip c => cases c <;> simp only [Bool.false_eq_true, if_false, if_true, h2, h4] <;> omega
  | jump n => exact (addrWord_le n).trans (by decide)
  | indexed n b => rw [toNat_indexedTarget]; omega
  | ret j => have := hstack j; rw [h2]; omega

/-! ### Instructions and `advance` -/

theorem stack_not_mem_partsWrittenBy (h : ∀ n, i ≠ .call n) : Part.stack ∉ partsWrittenBy i := by
  cases i
  case call n => exact absurd rfl (h n)
  all_goals simp [partsWrittenBy]

/-- The one entry a CALL writes is the address it was fetched from. -/
theorem exec_stack_le (hpc : s.pc.toNat ≤ 0xFFE) (hstack : ∀ j : Fin 16, s.stack[j.val].toNat ≤ 0xFFE)
    (h : exec i s = .next t) (j : Fin 16) : t.stack[j.val].toNat ≤ 0xFFE := by
  by_cases hcall : ∃ n, i = .call n
  · obtain ⟨n, rfl⟩ := hcall
    obtain ⟨hsp, rfl⟩ := call_next h
    simp only [Vector.getElem_set]
    split
    · exact hpc
    · exact hstack j
  · have hsame : t.stack = s.stack := exec_frame h .stack (stack_not_mem_partsWrittenBy (by simpa using hcall))
    rw [hsame]
    exact hstack j

/-- An instruction run where a fetch is possible keeps the invariant. -/
theorem State.Inv.of_exec (hinv : s.Inv) (hpc : s.pc.toNat ≤ 0xFFE) (h : exec i s = .next t) : t.Inv where
  mem_wf := t.mem.canonical
  cc_lt := by
    have hcc : t.cc = s.cc := exec_same .cc (by decide) h
    have hcfg : t.cfg = s.cfg := exec_same .cfg (by decide) h
    rw [hcc, hcfg]
    exact hinv.cc_lt
  stack_le := exec_stack_le hpc hinv.stack_le h
  pc_le := (exec_pcMove h).le hpc hinv.stack_le

theorem State.Inv.advance (hinv : s.Inv) : s.advance.1.Inv where
  mem_wf := s.advance.1.mem.canonical
  cc_lt := by
    have hlt := hinv.cc_lt
    obtain ⟨-, hin, hend⟩ := timerTickEffects s
    rw [State.advance_cfg]
    by_cases h : s.cc + 1 < s.cfg.cyclesPerTick
    · obtain ⟨hcc, -⟩ := hin h
      rwa [hcc]
    · obtain ⟨hcc, -⟩ := hend (by omega)
      omega
  stack_le := by rw [State.advance_stack]; exact hinv.stack_le
  pc_le := by rw [State.advance_pc]; exact hinv.pc_le

theorem State.Inv.stop (hinv : s.Inv) : s.stop.Inv := ⟨hinv.mem_wf, hinv.cc_lt, hinv.stack_le, hinv.pc_le⟩

/-- Settles O42: a step does nothing, sets the halted latch, or runs a fetched instruction and `advance`. -/
theorem stepKeepsTheInvariant : Obligations.StepKeepsTheInvariant := by
  intro s t hinv hstep
  rcases step_cases s with he | ⟨-, he⟩ | ⟨w, i, s1, -, hf, -, hx, he⟩
  all_goals obtain rfl := Host.Outcome.next.inj (he.symm.trans hstep)
  · exact hinv
  · exact hinv.stop
  · obtain ⟨hpc, -⟩ := s.fetch_some w hf
    exact (hinv.of_exec hpc hx).advance

/-! ### Reset and the host -/

theorem inv_resetWith (c : Config) (h : 1 ≤ c.cyclesPerTick) : (State.resetWith c).Inv where
  mem_wf := (State.resetWith c).mem.canonical
  cc_lt := h
  stack_le := fun j => by simp
  pc_le := by simp

/-- Settles O43: the counter is 0, every stack entry is 0 and `pc` is 0x200. -/
theorem resetMeetsTheInvariant : Obligations.ResetMeetsTheInvariant :=
  ⟨inv_resetWith Config.default (by decide), inv_resetWith⟩

/-- Settles O44: reset establishes the invariant again, and the others touch no part it speaks of but memory. -/
theorem hostOperationsKeepTheInvariant : Obligations.HostOperationsKeepTheInvariant := by
  intro s op hinv
  obtain ⟨hmem, hcc, hstack, hpc⟩ := hinv
  cases op with
  | reset =>
    obtain ⟨hmem', hcc', hstack', hpc'⟩ := inv_resetWith s.cfg (by omega)
    exact ⟨hmem', hcc', hstack', hpc'⟩
  | load image =>
    rcases hostLoad_cases s image with ⟨he, -⟩ | ⟨-, -, -, he⟩ <;> rw [HostOp.apply, he]
    · exact ⟨hmem, hcc, hstack, hpc⟩
    · exact ⟨Memory.canonical _, hcc, hstack, hpc⟩
  | setKey k p => exact ⟨hmem, hcc, hstack, hpc⟩
  | consumeFrame => exact ⟨hmem, hcc, hstack, hpc⟩

/-! ### Reached states -/

theorem State.Inv.ret_pc_le (hinv : s.Inv) (h : exec .ret s = .next t) : t.pc.toNat ≤ 0x1000 := by
  obtain ⟨-, hret⟩ := retGoesPastTheCall
  obtain ⟨-, hpop, -⟩ := hret s
  obtain ⟨j, hj, -⟩ := ret_next h
  obtain ⟨-, -, -, hbound, -⟩ := (hpop j hj).of_next h
  exact hbound (hinv.stack_le j)

theorem inv_of_reachable (h : Reachable s) : s.Inv := by
  induction h with
  | reset c hN => exact inv_resetWith c hN
  | step _ hs ih => exact stepKeepsTheInvariant _ _ ih hs
  | host _ op ih => exact hostOperationsKeepTheInvariant _ op ih

/-- Settles O45: the invariant bounds the entry a RET pops, and every reached state has it. -/
theorem reachableStatesAreSound : Obligations.ReachableStatesAreSound :=
  ⟨fun _ _ hinv h => hinv.ret_pc_le h,
    fun _ hreach => ⟨inv_of_reachable hreach, fun _ h => (inv_of_reachable hreach).ret_pc_le h⟩⟩

end Sys2Proof.Machine
end

section
/-! PROOFS. What is not observable (spec/10_state.md, 5. and 10.): the stack above `sp`, `dirty`, `st`, `cc` and the
position in the draws. Every instruction carries these parts along, and two runs that differ in them only stay so. -/

namespace Sys2Proof.Machine

/-! ### The hidden parts -/

/-- The parts that an instruction may write but, apart from the entry RET pops and the draw of RND, does not read. -/
structure Hidden where
  stack : Vector Word 16
  dirty : Bool
  st : Byte
  cc : Nat
  draws : Nat

def State.hidden (s : State) : Hidden := ⟨s.stack, s.dirty, s.st, s.cc, s.draws⟩

/-- The state with other hidden parts. -/
def State.overlay (s : State) (o : Hidden) : State :=
  { s with stack := o.stack, dirty := o.dirty, st := o.st, cc := o.cc, draws := o.draws }

/-- The stack with the address of a CALL on top of the entries in use, when there is room. -/
def State.pushed (s : State) (stack : Vector Word 16) : Vector Word 16 :=
  if h : s.sp.val < 16 then stack.set s.sp.val s.pc else stack

/-- What the instruction makes of a stack, when it completes in `s`. -/
def stackAfter (stack : Vector Word 16) (s : State) : Instr → Vector Word 16
  | .call _ => s.pushed stack
  | _ => stack

/-- What the instruction makes of the hidden parts, when it completes in `s`. -/
def Hidden.after (o : Hidden) (s : State) : Instr → Hidden
  | .cls | .drw _ _ _ => { o with dirty := true }
  | .call _ => { o with stack := s.pushed o.stack }
  | .rnd _ _ => { o with draws := o.draws + 1 }
  | .ldSTVx x => { o with st := s.v x }
  | _ => o

/-- The outcome with its state, if it has one, under `f`. -/
def Outcome.map (f : State → State) : Outcome → Outcome
  | .success t => .success (f t)
  | .blocking => .blocking
  | .invalid c => .invalid c

variable (s : State) (o : Hidden)

@[simp] theorem State.overlay_key : (s.overlay o).key = s.key := rfl
@[simp] theorem State.v_overlay (x : Reg) : (s.overlay o).v x = s.v x := rfl

theorem State.overlay_setRegs (first : Nat) (bs : List Byte) :
    (s.overlay o).setRegs first bs = (s.setRegs first bs).overlay o := by
  induction bs generalizing s first with
  | nil => rfl
  | cons b bs ih =>
    rw [State.setRegs, State.setRegs, ← ih]
    split <;> rfl

/-- A check that comes out the same in two states ends in outcomes that correspond when its branches do. -/
theorem ite_eq_map_ite {c c' : Prop} [Decidable c] [Decidable c'] {f : State → State} {a b a' b' : Outcome}
    (hc : c' ↔ c) (ha : a' = a.map f) (hb : b' = b.map f) : (if c' then a' else b') = (if c then a else b).map f := by
  by_cases h : c
  · rw [if_pos h, if_pos (hc.mpr h), ha]
  · rw [if_neg h, if_neg (mt hc.mp h), hb]

/-- Every instruction ends the same way with other hidden parts, and does to them what it would have done anyway: if the
stack has the same entries in use, and if the draw is the same for RND. -/
theorem outcome_overlay (i : Instr) (hstack : ∀ j : Fin 16, j.val < s.sp.val → o.stack[j.val] = s.stack[j.val])
    (hdraws : ∀ x nn, i = .rnd x nn → o.draws = s.draws) :
    outcome i (s.overlay o) = (outcome i s).map (·.overlay (o.after s i)) := by
  cases i
  case ret =>
    by_cases h : 0 < s.sp.val
    · have htop := hstack ⟨s.sp.val - 1, by omega⟩ (by simp only; omega)
      simp only at htop
      simp [outcome, retOutcome, State.pop, State.overlay, h, htop, Outcome.map, succeed, State.setPc, Hidden.after]
    · simp [outcome, retOutcome, State.pop, State.overlay, h, Outcome.map, raise]
  case call n =>
    by_cases h : s.sp.val < 16
    · simp [outcome, callOutcome, State.push, State.overlay, h, Outcome.map, succeed, State.setPc, Hidden.after,
        State.pushed]
    · simp [outcome, callOutcome, State.push, State.overlay, h, Outcome.map, raise]
  case rnd x nn =>
    have h : o.draws = s.draws := hdraws x nn rfl
    cases o; cases h; rfl
  case drw x y n =>
    exact ite_eq_map_ite Iff.rfl rfl (ite_eq_map_ite Iff.rfl rfl rfl)
  case skp x =>
    simp only [outcome, skpOutcome, State.v_overlay]
    cases keyIndex (s.v x) <;> rfl
  case sknp x =>
    simp only [outcome, sknpOutcome, State.v_overlay]
    cases keyIndex (s.v x) <;> rfl
  case ldVxK x =>
    simp only [outcome, ldVxKOutcome, State.overlay_key]
    cases pressedKey s.key <;> rfl
  case ldF x =>
    simp only [outcome, ldFOutcome, State.v_overlay]
    cases glyphAddress (s.v x) <;> rfl
  case ldB | storeRegs => exact ite_eq_map_ite Iff.rfl rfl rfl
  case loadRegs x =>
    refine ite_eq_map_ite Iff.rfl ?_ rfl
    rw [State.overlay_setRegs]
    rfl
  all_goals rfl

/-! ### One outcome, with the hidden parts it was given and with its own -/

variable {s o} {i : Instr} {t : State}

/-- A completed instruction made of the hidden parts what `Hidden.after` says. -/
theorem hidden_of_success (h : outcome i s = .success t) : t.overlay (s.hidden.after s i) = t := by
  have hown := outcome_overlay s s.hidden i (fun _ _ => rfl) (fun _ _ _ => rfl)
  rw [show s.overlay s.hidden = s from rfl, h] at hown
  exact (Outcome.success.inj hown).symm

/-! ### The position in the draws -/

theorem Hidden.after_draws (d : Nat) (h : ∀ x nn, i ≠ .rnd x nn) :
    { o with draws := d }.after s i = { o.after s i with draws := d } := by
  cases i
  case rnd x nn => exact absurd rfl (h x nn)
  all_goals rfl

theorem outcome_with_draws (d : Nat) (h : ∀ x nn, i ≠ .rnd x nn) :
    outcome i { s with draws := d } = (outcome i s).map fun t => { t with draws := d } := by
  have hover := outcome_overlay s { s.hidden with draws := d } i (fun _ _ => rfl) (fun x nn hi => absurd hi (h x nn))
  rw [show s.overlay { s.hidden with draws := d } = { s with draws := d } from rfl, Hidden.after_draws d h] at hover
  rw [hover]
  cases ho : outcome i s with
  | success t =>
    exact congrArg (fun u : State => Outcome.success { u with draws := d }) (hidden_of_success ho)
  | blocking => rfl
  | invalid => rfl

/-- Settles O56: with the other position in the draws the outcome is the same but for that position. -/
theorem onlyRndReadsTheDraws : Obligations.OnlyRndReadsTheDraws := by
  intro i s d hi
  rw [outcome_with_draws d hi]
  refine ⟨fun t ht => ⟨?_, by rw [ht]; rfl⟩, fun h => by rw [h]; rfl, fun c h => by rw [h]; rfl⟩
  have hdraws : Part.draws ∉ partsWrittenBy i := by
    cases i
    case rnd x nn => exact absurd rfl (hi x nn)
    all_goals simp [partsWrittenBy]
  exact exec_frame (exec_of_success ht) .draws hdraws

/-! ### `dirty`, `st` and `cc` -/

/-- What becomes of the stack and of the draws does not depend on the other hidden parts. -/
theorem Hidden.after_flags (d : Bool) (u : Byte) (c : Nat) (i : Instr) :
    ({ o with dirty := d, st := u, cc := c }.after s i).stack = (o.after s i).stack ∧
    ({ o with dirty := d, st := u, cc := c }.after s i).draws = (o.after s i).draws := by
  cases i <;> exact ⟨rfl, rfl⟩

theorem State.overlay_frame (hstack : o.stack = t.stack) (hdraws : o.draws = t.draws) :
    Frame [.dirty, .st, .cc] t (t.overlay o) := by
  intro p hp
  cases p <;> simp_all [Part.same, State.overlay, State.v, State.byte]

/-- Settles O40: the other values are hidden parts, and the instruction makes the same of the rest. -/
theorem noInstructionReadsDirtyStCc : Obligations.NoInstructionReadsDirtyStCc := by
  intro i s d u c
  have hover := outcome_overlay s { s.hidden with dirty := d, st := u, cc := c } i (fun _ _ => rfl) (fun _ _ _ => rfl)
  rw [show s.overlay { s.hidden with dirty := d, st := u, cc := c } = { s with dirty := d, st := u, cc := c } from rfl]
    at hover
  refine ⟨fun t ht => ?_, fun f hf => ?_⟩
  · rcases outcome_of_exec ht with ho | ⟨hb, rfl⟩
    · rw [ho] at hover
      obtain ⟨hstack, hdraws⟩ := Hidden.after_flags (s := s) (o := s.hidden) d u c i
      have hown := hidden_of_success ho
      refine ⟨_, exec_of_success hover, State.overlay_frame (hstack.trans ?_) (hdraws.trans ?_)⟩
      · exact congrArg (fun v : State => v.stack) hown
      · exact congrArg (fun v : State => v.draws) hown
    · rw [(outcome_eq_blocking_iff i t).mpr hb] at hover
      exact ⟨_, exec_of_blocking hover, State.overlay_frame (o := ⟨t.stack, d, u, c, t.draws⟩) rfl rfl⟩
  · rw [(outcome_eq_invalid_iff i s f).mpr hf] at hover
    exact (outcome_eq_invalid_iff i _ f).mp hover

/-! ### The stack above `sp` -/

/-- Two stacks have the same entries in use. -/
def SameBelow (s : State) (stack : Vector Word 16) : Prop :=
  ∀ j : Fin 16, j.val < s.sp.val → stack[j.val] = s.stack[j.val]

theorem Hidden.after_stack (stack : Vector Word 16) (i : Instr) :
    { o with stack := stack }.after s i = { o.after s i with stack := stackAfter stack s i } := by
  cases i <;> rfl

variable {stack : Vector Word 16}

theorem outcome_with_stack (h : SameBelow s stack) :
    outcome i { s with stack := stack } = (outcome i s).map fun t => { t with stack := stackAfter stack s i } := by
  have hover := outcome_overlay s { s.hidden with stack := stack } i h (fun _ _ _ => rfl)
  rw [show s.overlay { s.hidden with stack := stack } = { s with stack := stack } from rfl, Hidden.after_stack] at hover
  rw [hover]
  cases ho : outcome i s with
  | success t =>
    exact congrArg (fun u : State => Outcome.success { u with stack := stackAfter stack s i }) (hidden_of_success ho)
  | blocking => rfl
  | invalid => rfl

theorem execute_invalid_with_stack {w : Word} {c : Fault} (h : SameBelow s stack) (he : execute w s = .invalid c) :
    execute w { s with stack := stack } = .invalid c := by
  cases hd : decodeWord w with
  | error e => rw [execute_of_reject _ hd] at he ⊢; exact he
  | ok i =>
    rw [execute_of_decode _ hd] at he ⊢
    rw [outcome_with_stack h, he]
    rfl

/-- After the instruction the entries in use are again the same. -/
theorem SameBelow.after (h : SameBelow s stack) (ht : exec i s = .next t) : SameBelow t (stackAfter stack s i) := by
  intro j hj
  cases i
  case call n =>
    obtain ⟨hsp, rfl⟩ := call_next ht
    simp only [stackAfter, State.pushed, dif_pos hsp, Vector.getElem_set]
    split
    · rfl
    · exact h j (by simp only at hj; omega)
  case ret =>
    obtain ⟨k, hk, rfl⟩ := ret_next ht
    exact h j (by simp only [Fin.val_castSucc] at hj; omega)
  all_goals
    have hstack : t.stack = s.stack := exec_frame ht .stack (by simp [partsWrittenBy])
    have hsp : t.sp = s.sp := exec_frame ht .sp (by simp [partsWrittenBy])
    simp only [hstack]
    exact h j (hsp ▸ hj)

theorem State.advance_with_stack (s : State) (stack : Vector Word 16) :
    ({ s with stack := stack } : State).advance = ({ s.advance.1 with stack := stack }, s.advance.2) := by
  by_cases hcc : s.cc + 1 < s.cfg.cyclesPerTick
  · simp only [State.advance, if_pos hcc]
    rfl
  · by_cases hst : 0 < s.st.toNat
    · simp only [State.advance, if_neg hcc, if_pos hst]
      rfl
    · simp only [State.advance, if_neg hcc, if_neg hst]
      rfl

/-- Settles O41: whatever a tick does, it does with the other stack too. -/
theorem staleStackEntriesAreUnobservable : Obligations.StaleStackEntriesAreUnobservable := by
  intro s s' r b stack h ht
  rcases tick_cases s with ⟨hh, h'⟩ | ⟨hh, hl, h'⟩ | ⟨hr, hf, h'⟩ | ⟨w, c, hr, hf, he, h'⟩ |
    ⟨w, i, hr, hf, hd, ho, hp, h'⟩ | ⟨w, i, t, hr, hf, hd, hx, ho, h'⟩
  all_goals cases Host.Outcome.next.inj (h'.symm.trans ht)
  · exact ⟨stack, tick_of_halted hh, h⟩
  · exact ⟨stack, tick_of_not_loaded hh hl, h⟩
  · exact ⟨stack, tick_of_fetch_none hr hf, h⟩
  · exact ⟨stack, tick_of_invalid hr hf (execute_invalid_with_stack h he), h⟩
  · exact ⟨stack, tick_of_wait hr hf hd (by rw [outcome_with_stack h, ho]; rfl) hp, h⟩
  · have hadv := t.advance_with_stack (stackAfter stack s i)
    refine ⟨stackAfter stack s i, ?_, fun j hj => ?_⟩
    · rcases ho with ho | ⟨ho, rfl, hp⟩
      · have ho' : outcome i { s with stack := stack } = .success { t with stack := stackAfter stack s i } := by
          rw [outcome_with_stack h, ho]; rfl
        rw [tick_of_success (s := { s with stack := stack }) hr hf hd ho', hadv]
      · obtain ⟨⟨x, rfl⟩, -⟩ := (outcome_eq_blocking_iff i t).mp ho
        have ho' : outcome (.ldVxK x) { t with stack := stack } = .blocking := by
          rw [outcome_with_stack h, ho]; rfl
        rw [tick_of_counted_wait (s := { t with stack := stack }) hr hf hd ho' hp, State.advance_with_stack]
        rfl
    · rw [State.advance_stack]
      exact SameBelow.after h hx j ((t.advance_frame .sp (by decide)) ▸ hj)

end Sys2Proof.Machine
end

section
/-! PROOFS. The host (spec/60_exceptions.md table T12, spec/70_reset_and_hazards.md): what reset, load, setKey,
consumeFrame and the placing of a word do, and what they leave alone. -/

namespace Sys2Proof.Machine

/-! ### Reset -/

theorem byte_resetWith (c : Config) (a : Nat) :
    (State.resetWith c).byte a = if h : a < 80 then (fontBytes c.font)[a]'(by simpa using h) else 0 :=
  Memory.read_reset c.font a

/-- The font stands in memory glyph by glyph, five bytes each (R30). -/
theorem byte_resetWith_glyph (c : Config) (d : Fin 16) (r : Fin 5) :
    (State.resetWith c).byte (5 * d.val + r.val) = (c.font[d.val])[r.val] := by
  have hlt : 5 * d.val + r.val < 80 := by omega
  rw [byte_resetWith, dif_pos hlt]
  exact (List.getElem_eq_iff _).mpr (getElem?_fontBytes c.font d r)

/-- Settles O1: every field by its definition, and memory by what the font's 80 bytes make of it. -/
theorem resetIsTableT13 : Obligations.ResetIsTableT13 := by
  refine ⟨fun c => ⟨fun k => ?v, rfl, rfl, rfl, fun j => ?stack, byte_resetWith_glyph c, fun a ha _ => ?zero,
    fun x y _ _ => Screen.pixel_blank x y, rfl, fun k => ?key, rfl, rfl, rfl, rfl, rfl, rfl⟩, rfl⟩
  case v => simp [State.v]
  case stack => simp
  case zero => rw [byte_resetWith, dif_neg (by omega)]
  case key => simp

/-! ### Load -/

/-- Settles O51: the three refusals, and the block write of the image. -/
theorem loadCopiesTheImage : Obligations.LoadCopiesTheImage := by
  intro s image
  rcases hostLoad_cases s image with ⟨he, hwhy⟩ | ⟨hl, hpos, hle, he⟩
  · refine ⟨fun _ => he, fun hl hpos hle => ?_⟩
    simp only [romMax] at hwhy
    rcases hwhy with h | h
    · exact absurd hl (by simp [h])
    · omega
  · simp only [romMax] at hle
    refine ⟨fun h => ?_, fun _ _ _ => ⟨_, he, fun k hk => ?_, s.byte_setBytes_other 0x200 image, rfl, fun p hp => ?_⟩⟩
    · rcases h with h | h
      · exact absurd hl (by simp [h])
      · omega
    · exact s.byte_setBytes_at 0x200 image k hk (by simp only [memSize]; omega)
    · cases p <;> simp_all [Part.same, State.v]

/-! ### The other operations -/

/-- Settles O52: a set of one key, a clear of one bit, and reset's definition. -/
theorem hostOperationsTouchTheirStateOnly : Obligations.HostOperationsTouchTheirStateOnly := by
  refine fun s => ⟨fun k p => ⟨?same, fun j hj => ?other, fun q hq => ?keyFrame⟩,
    ⟨rfl, rfl, rfl, fun q hq => ?dirtyFrame⟩, rfl⟩
  case same => exact Vector.getElem_set_self k.isLt
  case other => exact Vector.getElem_set_ne k.isLt j.isLt fun h => hj (Fin.ext h.symm)
  case keyFrame => cases q <;> simp_all [Part.same, State.v, State.byte, hostSetKey]
  case dirtyFrame => cases q <;> simp_all [Part.same, State.v, State.byte, hostConsumeFrame]

/-! ### Placing a word -/

/-- Where the host places a word a fetch can read it (log 12). -/
theorem pc_placeWord_le (s : State) (w : Word) : (s.placeWord w).pc.toNat ≤ 0xFFE := by
  simp only [State.placeWord, State.setBytes_pc]
  split
  · assumption
  · decide

theorem fetch_placeWord (s : State) (w : Word) : (s.placeWord w).fetch = some w := by
  have h := pc_placeWord_le s w
  simp only [State.placeWord, State.setBytes_pc] at h ⊢
  exact fetch_setBytes _ w h

theorem placeWord_frame (s : State) (w : Word) : Frame [.mem, .pc, .loaded, .halted] s (s.placeWord w) := by
  intro p hp
  cases p <;> simp_all [Part.same, State.placeWord, State.v]

theorem placeWord_of_le (s : State) (w : Word) (h : s.pc.toNat ≤ 0xFFE) :
    (s.placeWord w).pc = s.pc ∧ OtherBytesSame s.pc.toNat 2 s (s.placeWord w) := by
  simp only [State.placeWord, if_pos h]
  exact ⟨rfl, s.byte_setBytes_other s.pc.toNat [hiByte w, loByte w]⟩

/-- Settles O53: a 16-bit word is itself the word that is placed. -/
theorem placedWordIsFetched : Obligations.PlacedWordIsFetched := by
  intro s w hw
  have hword : tableWord 16 w = BitVec.ofNat 16 w := by rw [tableWord, Nat.mod_eq_of_lt hw]
  rw [State.withFetchWord, hword]
  exact ⟨⟨rfl, rfl⟩, fetch_placeWord s _, placeWord_frame s _, placeWord_of_le s _⟩

end Sys2Proof.Machine
end
